-- ==== Sys2Proof/Word.lean ====
section
/-!
DEFINITION. The word types of the block: bytes, node addresses, priorities, encoded identifiers,
sets of addresses. Spec: 00_scope.md section 5, 10_state.md R14 to R23, 30_encoding.md R45, R48.
-/

namespace Sys2Proof

/-- 8 bits, 0..255 (00_scope.md section 5). -/
abbrev Byte := BitVec 8

/-- A node address, 0..63 (R15, R17). -/
abbrev Addr := BitVec 6

/-- A priority, 0..7, 0 the highest (R22). -/
abbrev Priority := BitVec 3

/-- An encoded arbitration id (R45). -/
abbrev V29 := BitVec 29

/-- A transport-level identifier (R48). -/
abbrev Ident := BitVec 32

/-- A set of addresses as the 64-bit mask of R14 and R19: bit `a` is 1 when address `a` is in the set. -/
abbrev AddrSet := BitVec 64

/-- Opaque values the block hands on and never inspects, each carried as a token (log entry 11). -/
abbrev Channel := Nat
abbrev Handle := Nat
abbrev Timestamp := Nat
abbrev Timeout := Nat

end Sys2Proof
end

