-- ==== Sys2Proof/Syntax.lean ====
section
/-!
DEFINITION. The commands of the block and the values they carry. One constructor of `Instr` per row of
spec/opcode_table.json: the 18 commands of 30_encoding.md R56, then the 5 data encodings (R45, R48, R50,
R51; log entry 3). A command arrives as a `Transfer` (log entries 1 and 2).
-/

namespace Sys2Proof

/-- An arbitration id (R22): the fields have the ranges of R22 by their types. The destination quantity is not
stored, it is `dests.length`. -/
structure ArbId where
  priority : Priority
  source : Addr
  dests : List Addr
  deriving DecidableEq, Repr

/-- A SecureMessage (R23 to R25). -/
structure Message where
  timestamp : Timestamp
  aid : ArbId
  payload : List Byte
  tags : List (List Byte)
  accepted : Bool
  deriving DecidableEq, Repr

/-- The configuration record of R14. -/
structure LinkCfg where
  channel : Channel
  receiveOwn : Bool
  fdEnabled : Bool
  claimed : AddrSet
  deriving DecidableEq, Repr

/-- The commands (R56) and the data encodings (R45, R48, R50, R51). Operands that a rule checks are unbounded
naturals (00_scope.md section 5, width of values). -/
inductive Instr where
  | aidEnc (priority source : Nat) (dests : List Nat)
  | aidDec (v29 : V29)
  | frmSel (n : Nat)
  | frmBuild (m : Message)
  | frmParse (buf : List Byte)
  | keyDerive (a : Addr)
  | macTag (key payload : List Byte)
  | macVerify (key payload tag : List Byte)
  | rptEntry (a src : Addr) (dests : List Addr)
  | rptRecord (a src : Addr) (dests : List Addr) (c : Nat)
  | rptCurrent (a src : Addr) (dests : List Addr)
  | nodeVerify (a : Addr) (m : Message)
  | msgNew (timestamp : Timestamp) (priority source : Nat) (dests payload : List Nat)
  | linkConstruct (cfg : LinkCfg)
  | linkClaim (claimed : List Nat)
  | linkResolve (d : Addr)
  | linkSend (m : Message)
  | linkRecv (t : Timeout)
  | arbid (v29 : V29)
  | identBuild (v29 : V29)
  | identParse (ident : Ident)
  | frameClassic (buf : List Byte)
  | frameFd (buf : List Byte)
  deriving DecidableEq, Repr

/-- The format of a transfer, after the "format" column of spec/opcode_table.json; the two readings of ID32 (as
written, as read) are two formats (log entry 3). -/
inductive Format where
  | cmd8
  | v29
  | identWritten
  | identRead
  | buf16
  | buf72
  deriving DecidableEq, Repr

/-- One whole command, or one data word, as the host hands it over (R36, R40: one at a time; log entry 1). -/
structure Transfer where
  format : Format
  bytes : List Byte
  deriving DecidableEq, Repr

end Sys2Proof
end

