-- ==== Sys2Proof/Config.lean ====
section
/-!
DEFINITION. What is fixed for the machine and what the spec leaves open: the constants of R5, the parameters of
00_scope.md section 4 as one record, and the free values, each a constant without a body. The machine's own choice
of the parameters is `Machine.params` (Sys2Proof/Machine/Operands.lean).
-/

namespace Sys2Proof

/-! ### Constants fixed by the source (R5) -/

/-- R5, R48: bit 31 of the transport-level identifier. -/
def extFlag : Ident := 0x80000000#32

/-- R5, R50: data region of a classic frame. -/
abbrev classicCap : Nat := 8

/-- R5, R51: data region of a flexible-data-rate frame. -/
abbrev fdCap : Nat := 64

/-- R5, R15: the largest node address. -/
abbrev addrMax : Nat := 63

/-- R5, R22: the largest priority value. -/
abbrev prioMax : Nat := 7

/-! ### Parameters (R6, R7, R27) -/

/-- The order of the 4 identifier bytes in a buffer (R35). -/
inductive ByteOrder where
  | little
  | big
  deriving DecidableEq, Repr

/-- The parameters of 00_scope.md section 4, with the constraints the section puts on them. -/
structure Params where
  /-- `TAG_LEN`: bytes of one tag. -/
  tagLen : Nat
  /-- `DIGEST_LEN`: bytes of a digest. -/
  digestLen : Nat
  /-- `MAC`: key and bytes to digest. -/
  mac : List Byte → List Byte → List Byte
  /-- `KEYPROV`: address to key. -/
  keyProv : Addr → List Byte
  /-- `HEX`: the rendering of a payload. -/
  hex : List Byte → List Byte
  /-- `CTR_INDEX`: where the freshness counter stands in the payload. -/
  ctrIndex : Nat
  /-- `ID_BYTE_ORDER`. -/
  idByteOrder : ByteOrder
  tagLen_pos : 1 ≤ tagLen
  tagLen_le : tagLen ≤ digestLen
  mac_length : ∀ key bytes, (mac key bytes).length = digestLen

/-! ### The transport's side: what is handed to it and what it answers (R131, R163, R165, R166) -/

/-- What the block hands to the transport. -/
inductive TransportRequest where
  /-- R131: obtaining the handle for a channel, with the two option bits. -/
  | obtain (channel : Channel) (receiveOwn fdEnabled : Bool)
  /-- R165: `TX.write(buf)` on the handle `TH`. -/
  | write (th : Handle) (buf : List Byte)
  /-- R166: `RX.read(t)` on the handle `TH`. -/
  | read (th : Handle) (t : Timeout)
  deriving DecidableEq, Repr

/-- R130: the handle, or failure. -/
inductive OpenAnswer where
  | handle (th : Handle)
  | failure
  deriving DecidableEq, Repr, Inhabited

/-- R165: `written(n)`, with `n` the transport's, or failure. -/
inductive WriteAnswer where
  | written (n : Nat)
  | failure
  deriving DecidableEq, Repr, Inhabited

/-- R166: `frame(buf)` with any byte sequence, `none`, or failure. -/
inductive ReadAnswer where
  | frame (buf : List Byte)
  | none
  | failure
  deriving DecidableEq, Repr, Inhabited

/-! ### Free values: nothing constrains them (log entries 6, 7, 9) -/

/-- D4, D5: `TAG_LEN` is one more than this, so at least 1. -/
opaque Config.tagLenPred : Nat

/-- D5: `DIGEST_LEN` is `TAG_LEN` and this. -/
opaque Config.digestExtra : Nat

/-- R99, D5: the keyed hash; its digest has `DIGEST_LEN` bytes by its type. -/
opaque Config.mac : List Byte → List Byte → Vector Byte (Config.tagLenPred + 1 + Config.digestExtra)

/-- R95, R96, D6: the key provider. -/
opaque Config.keyProv : Addr → List Byte

/-- R25, R87: the timestamp of a parsed message, a draw. -/
opaque Config.timestamp : Nat → Timestamp

/-- R130, R131: the answer to obtaining a handle, where the state lists none. -/
opaque Config.openAnswer : TransportRequest → Nat → OpenAnswer

/-- R165: the answer to a write, where the state lists none. -/
opaque Config.writeAnswer : TransportRequest → Nat → WriteAnswer

/-- R166: the answer to a read, where the state lists none. -/
opaque Config.readAnswer : TransportRequest → Nat → ReadAnswer

end Sys2Proof
end

