-- ==== Sys2Proof/WellFormed.lean ====
section
/-!
DEFINITION. Which terms of `Instr` are commands of the block: an arbitration id has at most three destinations
(R22), a classic buffer 16 bytes and a flexible-data-rate buffer 72 bytes (R32). Every other range is in the
operand's type or is checked by the command itself, with an answer of its own (log entry 17).
-/

namespace Sys2Proof

/-- R5: the largest number of destinations. -/
abbrev destMax : Nat := 3

/-- R32, R50: bytes of a classic frame buffer. -/
abbrev classicSize : Nat := 16

/-- R32, R51: bytes of a flexible-data-rate frame buffer. -/
abbrev fdSize : Nat := 72

/-- R22: an arbitration id holds 0 to 3 destinations. -/
def ArbId.wellFormed (aid : ArbId) : Bool := aid.dests.length ≤ destMax

/-- R23: a message holds an arbitration id. -/
def Message.wellFormed (m : Message) : Bool := m.aid.wellFormed

/-- The well-formed terms: what the decoder may answer and the encoder writes. -/
def WellFormed : Instr → Bool
  | .aidEnc _ _ _ => true
  | .aidDec _ => true
  | .frmSel _ => true
  | .frmBuild m => m.wellFormed
  | .frmParse _ => true
  | .keyDerive _ => true
  | .macTag _ _ => true
  | .macVerify _ _ _ => true
  | .rptEntry _ _ _ => true
  | .rptRecord _ _ _ _ => true
  | .rptCurrent _ _ _ => true
  | .nodeVerify _ m => m.wellFormed
  | .msgNew _ _ _ _ _ => true
  | .linkConstruct _ => true
  | .linkClaim _ => true
  | .linkResolve _ => true
  | .linkSend m => m.wellFormed
  | .linkRecv _ => true
  | .arbid _ => true
  | .identBuild _ => true
  | .identParse _ => true
  | .frameClassic buf => buf.length == classicSize
  | .frameFd buf => buf.length == fdSize

end Sys2Proof
end

