-- ==== Sys2Proof/Decode.lean ====
section
/-!
DEFINITION. The decoder of a transfer and, after it, the encoder. The codes are those of 30_encoding.md R56; the
fixed bits of the data encodings are those of R45, R48, R50, R51. The spec gives operands no bytes ("operands pass
by value"): how they follow the code is this model's own layout (log entry 2): a natural is written in groups of 7
bits, least significant group first, bit 7 of a byte saying that another follows, no longer than needed; a list is
its length and its elements; a record is its fields in the spec's order.
-/

namespace Sys2Proof

/-- Why the bytes of a transfer are not one command (log entry 4). -/
inductive DecodeError where
  /-- R56: "A code that is not in the table names no operation". -/
  | unknownCode (code : Byte)
  /-- A command transfer without a code. -/
  | noCode
  /-- The transfer ends inside the operands. -/
  | truncated
  /-- A natural written longer than needed. -/
  | nonMinimal
  /-- An operand above the range its rule gives it (an address above 63, a priority above 7). -/
  | operandRange
  /-- Bytes left over after the operands. -/
  | trailing
  /-- A data word whose length is not that of its format. -/
  | wrongSize
  /-- Fixed bits of a data word that do not have the table's value. -/
  | fixedBits
  /-- The operands are of the right shape but make no well-formed command (R22). -/
  | illFormed
  deriving DecidableEq, Repr

/-! ### Bytes and numbers -/

/-- The `k` low bytes of `n`, least significant first. -/
def leBytes : Nat → Nat → List Byte
  | 0, _ => []
  | k + 1, n => BitVec.ofNat 8 n :: leBytes k (n / 256)

/-- The number whose bytes, least significant first, are given. -/
def leNat : List Byte → Nat
  | [] => 0
  | b :: rest => b.toNat + 256 * leNat rest

/-! ### Reading operands -/

/-- What reading one operand answers: the operand and the bytes after it. -/
abbrev ReadResult (α : Type) := Except DecodeError (α × List Byte)

/-- Go on with what was read, or keep the error. -/
def andThen {α β : Type} (r : ReadResult α) (f : α → List Byte → Except DecodeError β) : Except DecodeError β :=
  match r with
  | .error e => .error e
  | .ok (a, rest) => f a rest

def readByte : List Byte → ReadResult Byte
  | [] => .error .truncated
  | b :: rest => .ok (b, rest)

def readNat : List Byte → ReadResult Nat
  | [] => .error .truncated
  | b :: rest =>
    if b.toNat < 128 then .ok (b.toNat, rest)
    else andThen (readNat rest) fun n rest' =>
      if n = 0 then .error .nonMinimal else .ok (b.toNat - 128 + 128 * n, rest')

/-- A natural that must fit `w` bits. -/
def readWord (w : Nat) (bs : List Byte) : ReadResult (BitVec w) :=
  andThen (readNat bs) fun n rest =>
    if n < 2 ^ w then .ok (BitVec.ofNat w n, rest) else .error .operandRange

def readBool (bs : List Byte) : ReadResult Bool :=
  andThen (readWord 1 bs) fun b rest => .ok (b == 1#1, rest)

def readMany {α : Type} (rd : List Byte → ReadResult α) : Nat → List Byte → ReadResult (List α)
  | 0, bs => .ok ([], bs)
  | k + 1, bs => andThen (rd bs) fun a rest => andThen (readMany rd k rest) fun as rest' => .ok (a :: as, rest')

def readList {α : Type} (rd : List Byte → ReadResult α) (bs : List Byte) : ReadResult (List α) :=
  andThen (readNat bs) fun k rest => readMany rd k rest

/-- A byte sequence: its length, then its bytes. -/
def readBytes (bs : List Byte) : ReadResult (List Byte) := readList readByte bs

def readAid (bs : List Byte) : ReadResult ArbId :=
  andThen (readWord 3 bs) fun p bs => andThen (readWord 6 bs) fun s bs => andThen (readList (readWord 6) bs) fun ds bs =>
    .ok ({ priority := p, source := s, dests := ds }, bs)

def readMessage (bs : List Byte) : ReadResult Message :=
  andThen (readNat bs) fun ts bs => andThen (readAid bs) fun aid bs => andThen (readBytes bs) fun payload bs =>
  andThen (readList readBytes bs) fun tags bs => andThen (readBool bs) fun acc bs =>
    .ok ({ timestamp := ts, aid := aid, payload := payload, tags := tags, accepted := acc }, bs)

def readCfg (bs : List Byte) : ReadResult LinkCfg :=
  andThen (readNat bs) fun ch bs => andThen (readBool bs) fun own bs => andThen (readBool bs) fun fd bs =>
  andThen (readWord 64 bs) fun claimed bs =>
    .ok ({ channel := ch, receiveOwn := own, fdEnabled := fd, claimed := claimed }, bs)

/-! ### The decoder -/

/-- The operands of the command with this code (R56). -/
def readOperands (code : Byte) (bs : List Byte) : ReadResult Instr :=
  match code.toNat with
  | 0x01 =>
    andThen (readNat bs) fun p bs => andThen (readNat bs) fun s bs => andThen (readList readNat bs) fun ds bs =>
      .ok (.aidEnc p s ds, bs)
  | 0x02 => andThen (readWord 29 bs) fun v bs => .ok (.aidDec v, bs)
  | 0x10 => andThen (readNat bs) fun n bs => .ok (.frmSel n, bs)
  | 0x11 => andThen (readMessage bs) fun m bs => .ok (.frmBuild m, bs)
  | 0x12 => andThen (readBytes bs) fun buf bs => .ok (.frmParse buf, bs)
  | 0x20 => andThen (readWord 6 bs) fun a bs => .ok (.keyDerive a, bs)
  | 0x21 => andThen (readBytes bs) fun k bs => andThen (readBytes bs) fun p bs => .ok (.macTag k p, bs)
  | 0x22 =>
    andThen (readBytes bs) fun k bs => andThen (readBytes bs) fun p bs => andThen (readBytes bs) fun t bs =>
      .ok (.macVerify k p t, bs)
  | 0x30 =>
    andThen (readWord 6 bs) fun a bs => andThen (readWord 6 bs) fun s bs => andThen (readList (readWord 6) bs) fun ds bs =>
      .ok (.rptEntry a s ds, bs)
  | 0x31 =>
    andThen (readWord 6 bs) fun a bs => andThen (readWord 6 bs) fun s bs => andThen (readList (readWord 6) bs) fun ds bs =>
    andThen (readNat bs) fun c bs => .ok (.rptRecord a s ds c, bs)
  | 0x32 =>
    andThen (readWord 6 bs) fun a bs => andThen (readWord 6 bs) fun s bs => andThen (readList (readWord 6) bs) fun ds bs =>
      .ok (.rptCurrent a s ds, bs)
  | 0x40 => andThen (readWord 6 bs) fun a bs => andThen (readMessage bs) fun m bs => .ok (.nodeVerify a m, bs)
  | 0x50 =>
    andThen (readNat bs) fun ts bs => andThen (readNat bs) fun p bs => andThen (readNat bs) fun s bs =>
    andThen (readList readNat bs) fun ds bs => andThen (readList readNat bs) fun payload bs =>
      .ok (.msgNew ts p s ds payload, bs)
  | 0x51 => andThen (readCfg bs) fun cfg bs => .ok (.linkConstruct cfg, bs)
  | 0x52 => andThen (readList readNat bs) fun claimed bs => .ok (.linkClaim claimed, bs)
  | 0x53 => andThen (readWord 6 bs) fun d bs => .ok (.linkResolve d, bs)
  | 0x54 => andThen (readMessage bs) fun m bs => .ok (.linkSend m, bs)
  | 0x55 => andThen (readNat bs) fun t bs => .ok (.linkRecv t, bs)
  | _ => .error (.unknownCode code)

/-- A transfer is ONE whole command (R40): no byte is left over, and the command is well formed. -/
def wholeCommand (r : ReadResult Instr) : Except DecodeError Instr :=
  andThen r fun i rest =>
    if rest = [] then (if WellFormed i then .ok i else .error .illFormed) else .error .trailing

/-- A 32-bit data word, low byte first, whose bits 31:29 are `top`; its bits 28:0 are the operand. -/
def fixedTop (top : Nat) (bs : List Byte) (mk : V29 → Instr) : Except DecodeError Instr :=
  if bs.length = 4 then
    (if leNat bs / 2 ^ 29 = top then .ok (mk (BitVec.ofNat 29 (leNat bs))) else .error .fixedBits)
  else .error .wrongSize

/-- The decoder: total on any transfer, rejecting by name. -/
def decode (t : Transfer) : Except DecodeError Instr :=
  match t.format with
  | .cmd8 =>
    match t.bytes with
    | [] => .error .noCode
    | code :: operands => wholeCommand (readOperands code operands)
  | .v29 => fixedTop 0 t.bytes .arbid
  | .identWritten => fixedTop 4 t.bytes .identBuild
  | .identRead =>
    if t.bytes.length = 4 then .ok (.identParse (BitVec.ofNat 32 (leNat t.bytes))) else .error .wrongSize
  | .buf16 => if t.bytes.length = classicSize then .ok (.frameClassic t.bytes) else .error .wrongSize
  | .buf72 => if t.bytes.length = fdSize then .ok (.frameFd t.bytes) else .error .wrongSize

/-! ### Words of spec/opcode_table.json -/

/-- How many bytes follow the code when every operand is zero or empty. -/
def zeroOperandBytes (code : Nat) : Nat :=
  match code with
  | 0x01 => 3
  | 0x11 => 7
  | 0x21 => 2
  | 0x22 => 3
  | 0x30 => 3
  | 0x31 => 4
  | 0x32 => 3
  | 0x40 => 8
  | 0x50 => 5
  | 0x51 => 4
  | 0x54 => 7
  | _ => 1

/-- The transfer that holds a table word of `nbits` bits (log entry 22): 8 bits are a command code, followed by zero
operands; 29 bits are a bare arbitration id; 32 bits are an identifier, as written when bits 31:29 are 100 and as read
otherwise; 128 and 576 bits are frame buffers. -/
def tableTransfer (nbits w : Nat) : Transfer :=
  if nbits ≤ 8 then
    { format := .cmd8, bytes := leBytes 1 w ++ List.replicate (zeroOperandBytes (w % 256)) 0 }
  else if nbits ≤ 29 then { format := .v29, bytes := leBytes 4 w }
  else if nbits ≤ 32 then
    { format := if w / 2 ^ 29 % 8 = 4 then .identWritten else .identRead, bytes := leBytes 4 w }
  else if nbits ≤ 128 then { format := .buf16, bytes := leBytes 16 w }
  else { format := .buf72, bytes := leBytes 72 w }

/-- The instruction read from a word of spec/opcode_table.json whose later bits are zero. -/
def decodeTableWord (nbits w : Nat) : Option Instr := (decode (tableTransfer nbits w)).toOption

/-! ### The encoder -/

/-- `n` in groups of 7 bits; `fuel` at least `n` is enough. -/
def writeNatFuel : Nat → Nat → List Byte
  | 0, n => [BitVec.ofNat 8 n]
  | fuel + 1, n =>
    if n < 128 then [BitVec.ofNat 8 n] else BitVec.ofNat 8 (n % 128 + 128) :: writeNatFuel fuel (n / 128)

def writeNat (n : Nat) : List Byte := writeNatFuel n n

def writeWord {w : Nat} (v : BitVec w) : List Byte := writeNat v.toNat

def writeBool (b : Bool) : List Byte := writeNat b.toNat

def writeList {α : Type} (wr : α → List Byte) (as : List α) : List Byte :=
  writeNat as.length ++ (as.map wr).flatten

def writeBytes (bs : List Byte) : List Byte := writeList (fun b => [b]) bs

def writeAid (aid : ArbId) : List Byte :=
  writeWord aid.priority ++ writeWord aid.source ++ writeList writeWord aid.dests

def writeMessage (m : Message) : List Byte :=
  writeNat m.timestamp ++ writeAid m.aid ++ writeBytes m.payload ++ writeList writeBytes m.tags ++ writeBool m.accepted

def writeCfg (cfg : LinkCfg) : List Byte :=
  writeNat cfg.channel ++ writeBool cfg.receiveOwn ++ writeBool cfg.fdEnabled ++ writeWord cfg.claimed

def commandTransfer (code : Byte) (operands : List Byte) : Transfer := { format := .cmd8, bytes := code :: operands }

/-- The transfer of a well-formed command, from the codes of R56 and the layouts of R45, R48, R50, R51. -/
def encode : Instr → Transfer
  | .aidEnc p s ds => commandTransfer 0x01 (writeNat p ++ writeNat s ++ writeList writeNat ds)
  | .aidDec v => commandTransfer 0x02 (writeWord v)
  | .frmSel n => commandTransfer 0x10 (writeNat n)
  | .frmBuild m => commandTransfer 0x11 (writeMessage m)
  | .frmParse buf => commandTransfer 0x12 (writeBytes buf)
  | .keyDerive a => commandTransfer 0x20 (writeWord a)
  | .macTag k p => commandTransfer 0x21 (writeBytes k ++ writeBytes p)
  | .macVerify k p t => commandTransfer 0x22 (writeBytes k ++ writeBytes p ++ writeBytes t)
  | .rptEntry a s ds => commandTransfer 0x30 (writeWord a ++ writeWord s ++ writeList writeWord ds)
  | .rptRecord a s ds c => commandTransfer 0x31 (writeWord a ++ writeWord s ++ writeList writeWord ds ++ writeNat c)
  | .rptCurrent a s ds => commandTransfer 0x32 (writeWord a ++ writeWord s ++ writeList writeWord ds)
  | .nodeVerify a m => commandTransfer 0x40 (writeWord a ++ writeMessage m)
  | .msgNew ts p s ds payload =>
    commandTransfer 0x50 (writeNat ts ++ writeNat p ++ writeNat s ++ writeList writeNat ds ++ writeList writeNat payload)
  | .linkConstruct cfg => commandTransfer 0x51 (writeCfg cfg)
  | .linkClaim claimed => commandTransfer 0x52 (writeList writeNat claimed)
  | .linkResolve d => commandTransfer 0x53 (writeWord d)
  | .linkSend m => commandTransfer 0x54 (writeMessage m)
  | .linkRecv t => commandTransfer 0x55 (writeNat t)
  | .arbid v => { format := .v29, bytes := leBytes 4 v.toNat }
  | .identBuild v => { format := .identWritten, bytes := leBytes 4 (v.toNat + 2 ^ 31) }
  | .identParse ident => { format := .identRead, bytes := leBytes 4 ident.toNat }
  | .frameClassic buf => { format := .buf16, bytes := buf }
  | .frameFd buf => { format := .buf72, bytes := buf }

end Sys2Proof
end

