-- ==== Sys2Proof/Machine/State.lean ====
section
/-!
DEFINITION. The state of one instance of the block (R12 to R21), its ports toward the host and the transport (R31,
D3), the answers a command can give (R150, R151), the faults and refusals, and the state at reset (R29). Plain data.
-/

namespace Sys2Proof.Machine

open Sys2Proof

/-- A partial map held as its entries; canonical when the keys are strictly rising (log entry 12). -/
abbrev KMap (κ α : Type) := List (κ × α)

/-- The key of a replay-table entry: a source and a SET of destinations (R19). -/
structure ChannelKey where
  source : Addr
  dests : AddrSet
  deriving DecidableEq, Repr

/-- R18: last-accepted counters by channel. -/
abbrev ReplayTable := KMap ChannelKey Nat

/-- R17. -/
structure Node where
  address : Addr
  key : List Byte
  rpt : ReplayTable
  deriving DecidableEq, Repr

/-- R16: the node registry. -/
abbrev Registry := KMap Addr Node

/-- R49: the two frame shapes. -/
inductive FrameKind where
  | classic
  | fd
  deriving DecidableEq, Repr

/-- R151, sub-causes 1.1 to 1.4 of `MalformedMessage`. -/
inductive MessageCause where
  | badArbitrationId
  | byteOutOfRange
  | payloadTooLong
  | badTags
  deriving DecidableEq, Repr

/-- R151, sub-causes of `MalformedFrame`. -/
inductive FrameCause where
  | badSize
  | badLength
  deriving DecidableEq, Repr

/-- R150, R151: what a command can raise, refusals included. -/
inductive Err where
  | malformedMessage (c : MessageCause)
  | malformedFrame (c : FrameCause)
  | transportFailure
  | notConstructed
  | alreadyConstructed
  | addressSpaceExhausted
  | noSuchNode
  deriving DecidableEq, Repr

/-- The cause `NODE.VERIFY` reports beside the flag (R121, R151 codes 0, 2, 3, 11). -/
inductive Cause where
  | accepted
  | authFailure
  | replay
  | noCounter
  deriving DecidableEq, Repr

/-- The six fields of an encoded arbitration id (R45). -/
structure ArbFields where
  p : Priority
  s : Addr
  q : BitVec 2
  d0 : Addr
  d1 : Addr
  d2 : Addr
  deriving DecidableEq, Repr

/-- R91: the view both shapes share. -/
structure FrameView where
  ident : Ident
  length : Byte
  body : List Byte
  deriving DecidableEq, Repr

/-- What a command answers (R150; the "Result" column of R56). -/
inductive Response where
  /-- `LINK.CONSTRUCT` (R130). -/
  | ok
  /-- `RPT.RECORD` (R112): done, no value. -/
  | done
  /-- `AID.ENC` (R70); `IDENT.PARSE` (R48). -/
  | v29 (v : V29)
  /-- `AID.DEC` (R72). -/
  | arbId (aid : ArbId)
  /-- `FRM.SEL` (R80). -/
  | kind (k : FrameKind)
  /-- `FRM.BUILD` (R83). -/
  | buffer (buf : List Byte)
  /-- `FRM.PARSE` (R86), `MSG.NEW` (R134). -/
  | message (m : Message)
  /-- `KEY.DERIVE` (R95). -/
  | key (k : List Byte)
  /-- `MAC.TAG` (R98). -/
  | tag (t : List Byte)
  /-- `MAC.VERIFY` (R100). -/
  | verdict (b : Bool)
  /-- `RPT.ENTRY` (R111): a counter, or absent. -/
  | entry (c : Option Nat)
  /-- `RPT.CURRENT` (R113). -/
  | counter (c : Nat)
  /-- `NODE.VERIFY` (R121). -/
  | verified (m : Message) (c : Cause)
  /-- `LINK.CLAIM` (R132): a natural, 64 when all addresses are claimed. -/
  | address (a : Nat)
  /-- `LINK.RESOLVE` (R135). -/
  | node (n : Node)
  /-- `LINK.SEND` (R138). -/
  | sent (m : Message) (nbytes : Nat)
  /-- `LINK.RECV` (R140). -/
  | received (m : Message) (c : Cause)
  /-- `LINK.RECV` (R140): "not an error". -/
  | noMessage
  /-- `LINK.SEND`, `LINK.RECV` (R155): a result. -/
  | transportFailure
  /-- `ARBID` (R45, R47). -/
  | fields (f : ArbFields)
  /-- `IDENT.BUILD` (R48). -/
  | ident (i : Ident)
  /-- `FRAME.CLASSIC`, `FRAME.FD` (R50, R51, R91). -/
  | view (v : FrameView)
  /-- A raised error or a refusal of the spec (R150 kinds 2 and 3), returned to the host (R154). -/
  | error (e : Err)
  deriving DecidableEq, Repr

/-- Why the machine stops with a fault. -/
inductive Fault where
  /-- Raised by `step` when the transfer at the command port is not one whole command (R40: the step relation takes
  one whole command at a time, and there is no step for anything else). Safe: the model stops (log entry 4). -/
  | brokenTransfer (why : DecodeError)
  deriving DecidableEq, Repr

/-- Why the machine refuses what it is given. -/
inductive Refusal where
  /-- Raised by an arm of `exec` whose instruction has no meaning yet; no arm does. Safe. -/
  | notModelled (mnemonic : String)
  /-- Raised by `step` for a command code outside R56, which "names no operation". Safe: the model stops
  (log entry 4). -/
  | unknownCode (code : Byte)
  deriving DecidableEq, Repr

/-- The state of one instance and of its ports. -/
structure State where
  /-- `CONSTRUCTED` (R13). -/
  constructed : Bool
  /-- `CFG` (R14). -/
  cfg : LinkCfg
  /-- `LOCAL` (R15). -/
  localAddr : Addr
  /-- `REG` (R16 to R20). -/
  reg : Registry
  /-- `TH` (R21). -/
  th : Handle
  /-- The command port: what the host has issued and the block has not taken, oldest first (log entry 1). -/
  port : List Transfer
  /-- The response port: the answer of the last command (log entry 5). -/
  response : Option Response
  /-- What the last command handed to the transport, if anything (log entry 5). -/
  request : Option TransportRequest
  /-- The transport's next answers to obtaining a handle (log entry 6). -/
  openIn : List OpenAnswer
  /-- The transport's next answers to `TX.write` (log entry 6). -/
  writeIn : List WriteAnswer
  /-- The transport's next answers to `RX.read` (log entry 6). -/
  readIn : List ReadAnswer
  /-- How many free values have been drawn: the model's own field (log entry 7). -/
  draws : Nat
  deriving DecidableEq, Repr

/-- Before construction (R29). `CONSTRUCTED` is false by R29; the spec leaves the other block state "unspecified;
unreadable" there, and this model gives it the values of log entry 8; the ports are empty (log entries 1, 5, 6, 7). -/
def State.reset : State :=
  { constructed := false
    cfg := { channel := 0, receiveOwn := false, fdEnabled := false, claimed := 0 }
    localAddr := 0
    reg := []
    th := 0
    port := []
    response := none
    request := none
    openIn := []
    writeIn := []
    readIn := []
    draws := 0 }

end Sys2Proof.Machine
end

