-- ==== Sys2Proof/Machine/Flags.lean ====
section
/-!
DEFINITION. The one status flag, `accepted` (R24), and the outcome codes of R151.
-/

namespace Sys2Proof.Machine

open Sys2Proof

/-- `accepted` as a cause decides it: true only when both checks passed (R121). -/
def Cause.flag : Cause → Bool
  | .accepted => true
  | .authFailure => false
  | .replay => false
  | .noCounter => false

/-- The message with its flag written from scratch (R121). -/
def withAccepted (m : Message) (c : Cause) : Message := { m with accepted := c.flag }

/-- The code of a cause (R151). -/
def Cause.code : Cause → Nat
  | .accepted => 0
  | .authFailure => 2
  | .replay => 3
  | .noCounter => 11

/-- The code of an error (R151). -/
def Err.code : Err → Nat
  | .malformedMessage _ => 1
  | .transportFailure => 4
  | .malformedFrame _ => 6
  | .notConstructed => 7
  | .alreadyConstructed => 8
  | .addressSpaceExhausted => 9
  | .noSuchNode => 10

/-- The number of a `MalformedMessage` sub-cause after the point of R151's 1.1 to 1.4. -/
def MessageCause.subCode : MessageCause → Nat
  | .badArbitrationId => 1
  | .byteOutOfRange => 2
  | .payloadTooLong => 3
  | .badTags => 4

/-- The code of an answer (R151): 0 for a normal end. -/
def Response.code : Response → Nat
  | .error e => e.code
  | .verified _ c => c.code
  | .received _ c => c.code
  | .transportFailure => 4
  | .noMessage => 12
  | .ok | .done | .v29 _ | .arbId _ | .kind _ | .buffer _ | .message _ | .key _ | .tag _ | .verdict _ | .entry _
  | .counter _ | .address _ | .node _ | .sent _ _ | .fields _ | .ident _ | .view _ => 0

end Sys2Proof.Machine
end

