-- ==== Sys2Proof/Machine/Operands.lean ====
section
/-!
DEFINITION. Operand forms and the byte-level views the commands share: the machine's parameters, the rendering `HEX`
(R97), identifier bytes (R35), truncation to trailing bytes (R98), sets of addresses and channel keys (R19), and the
tag a node checks (R125).
-/

namespace Sys2Proof.Machine

open Sys2Proof

/-! ### The machine's parameters -/

/-- One hexadecimal digit in lower-case ASCII (R97). -/
def hexDigit (n : Nat) : Byte := BitVec.ofNat 8 (if n < 10 then 0x30 + n else 0x57 + n)

/-- `HEX` (R97): two digits per byte, high nibble first. -/
def hexLower : List Byte → List Byte
  | [] => []
  | b :: rest => hexDigit (b.toNat / 16) :: hexDigit (b.toNat % 16) :: hexLower rest

/-- The parameters of this machine: `TAG_LEN`, `DIGEST_LEN`, `MAC` and `KEYPROV` stay open (log entry 9); `HEX`,
`CTR_INDEX` and `ID_BYTE_ORDER` have the value the spec decides (R97, R122, R35; log entry 10). -/
def params : Params where
  tagLen := Config.tagLenPred + 1
  digestLen := Config.tagLenPred + 1 + Config.digestExtra
  mac := fun key bytes => (Config.mac key bytes).toList
  keyProv := Config.keyProv
  hex := hexLower
  ctrIndex := 0
  idByteOrder := .little
  tagLen_pos := Nat.le_add_left 1 _
  tagLen_le := Nat.le_add_right _ _
  mac_length := fun _ _ => Vector.length_toList

/-! ### Bytes -/

/-- The 4 bytes of an identifier in a buffer: `bytesLE32` when the order is little (R35). -/
def identBytes (o : ByteOrder) (i : Ident) : List Byte :=
  match o with
  | .little => leBytes 4 i.toNat
  | .big => (leBytes 4 i.toNat).reverse

/-- The identifier whose 4 buffer bytes are given: `LE32` when the order is little (R35). -/
def identOfBytes (o : ByteOrder) (bs : List Byte) : Ident :=
  match o with
  | .little => BitVec.ofNat 32 (leNat bs)
  | .big => BitVec.ofNat 32 (leNat bs.reverse)

/-- `last_n` (00_scope.md section 5). -/
def lastN (n : Nat) (bs : List Byte) : List Byte := bs.drop (bs.length - n)

/-- `zeros(n)` (00_scope.md section 5). -/
def zeros (n : Nat) : List Byte := List.replicate n 0#8

/-! ### Sets of addresses and channels -/

/-- `set(L)` for a list of addresses (R19): bit `a` is 1 exactly when `a` occurs. -/
def addrSet : List Addr → AddrSet
  | [] => 0#64
  | a :: rest => (1#64 <<< a.toNat) ||| addrSet rest

/-- The members of a set of addresses, as naturals in rising order. -/
def addrMembers (s : AddrSet) : List Nat := (List.range 64).filter fun n => s.getLsbD n

/-- The channel of a source and a collection of destinations (R19, R110). -/
def channelKey (src : Addr) (dests : List Addr) : ChannelKey := { source := src, dests := addrSet dests }

/-- The channel of a message (R121, R128): taken from its arbitration id. -/
def messageChannel (m : Message) : ChannelKey := channelKey m.aid.source m.aid.dests

/-- The order in which a registry lists its entries. -/
def addrOrd (a : Addr) : Nat := a.toNat

/-- The order in which a replay table lists its entries. -/
def channelOrd (k : ChannelKey) : Nat := k.source.toNat * 2 ^ 64 + k.dests.toNat

/-! ### Which tag a node checks -/

/-- The tag at the first position of `a` in the destination list, if there is one (R121, R125). -/
def tagFor (a : Addr) (m : Message) : Option (List Byte) :=
  match m.aid.dests.idxOf? a with
  | none => none
  | some i => m.tags[i]?

/-- The freshness counter a payload carries, if it is long enough (R122). -/
def carriedCounter (P : Params) (payload : List Byte) : Option Nat := (payload[P.ctrIndex]?).map BitVec.toNat

end Sys2Proof.Machine
end

