-- ==== Sys2Proof/Machine/Ops.lean ====
section
/-!
DEFINITION. The operations the commands share: answering and raising (R150, R154), the refusal before construction
(R13, R158), the keyed storage (R31), the transport (R131, R165, R166), draws (R25), and taking a command from the
command port (R40).
-/

namespace Sys2Proof.Machine

open Sys2Proof

/-! ### Ending a command -/

/-- A command ends: its answer, and what it handed to the transport, stand at the ports (R150; log entry 5). -/
def State.respond (s : State) (r : Response) (q : Option TransportRequest) : State :=
  { s with response := some r, request := q }

/-- A command that reached no transport returns a result (R150, kind 1). -/
def State.answer (s : State) (r : Response) : State := s.respond r none

/-- Raising an error, refusals included: the block's one way of taking an exception. The host receives the error and
no block state is written: no saved context, no cause register, no mode change, no vector (R150, R154). There is no
return from it: "after any outcome, error included, the block is ready for the next command" (R160). -/
def State.raise (s : State) (e : Err) (q : Option TransportRequest) : State := s.respond (.error e) q

/-- A result or an error of a command that reached no transport. -/
def State.reply (s : State) (r : Except Err Response) : State :=
  match r with
  | .ok a => s.answer a
  | .error e => s.raise e none

/-- A command that touches block state is refused before construction (R13, R158, R173). -/
def whenConstructed (s : State) (s' : State) : State := if s.constructed then s' else s.raise .notConstructed none

/-! ### Keyed storage -/

/-- Look a key up. -/
def KMap.find {κ α : Type} [DecidableEq κ] (k : κ) : KMap κ α → Option α
  | [] => none
  | (k', v) :: rest => if k' = k then some v else KMap.find k rest

/-- Add or overwrite an entry, keeping the keys in rising order of `ord`. -/
def KMap.put {κ α : Type} (ord : κ → Nat) (k : κ) (v : α) : KMap κ α → KMap κ α
  | [] => [(k, v)]
  | (k', v') :: rest =>
    if ord k < ord k' then (k, v) :: (k', v') :: rest
    else if ord k = ord k' then (k, v) :: rest
    else (k', v') :: KMap.put ord k v rest

/-- The canonical form: keys strictly rising (log entry 12). -/
abbrev KMap.wf {κ α : Type} (ord : κ → Nat) (m : KMap κ α) : Prop := (m.map fun e => ord e.1).Pairwise (· < ·)

/-- `RPT[a][k]` (R17, R111). -/
def ReplayTable.lookup (t : ReplayTable) (k : ChannelKey) : Option Nat := KMap.find k t

/-- `RPT[a][k] <- c` (R17, R112). -/
def ReplayTable.store (t : ReplayTable) (k : ChannelKey) (c : Nat) : ReplayTable := KMap.put channelOrd k c t

/-- The stored counter, 0 when there is no entry (R113). -/
def ReplayTable.current (t : ReplayTable) (k : ChannelKey) : Nat := (t.lookup k).getD 0

/-- `REG[a]` (R16). -/
def Registry.lookup (reg : Registry) (a : Addr) : Option Node := KMap.find a reg

/-- `REG[a] <- node` (R16). -/
def Registry.store (reg : Registry) (a : Addr) (n : Node) : Registry := KMap.put addrOrd a n reg

/-- The state with another registry: the one write to `REG`. -/
def State.withReg (s : State) (reg : Registry) : State := { s with reg := reg }

/-- A Node at its creation: its key derived once, its table empty (R17, R95). -/
def freshNode (P : Params) (a : Addr) : Node := { address := a, key := P.keyProv a, rpt := [] }

/-- The Node at an address, created when absent (R135). -/
def Registry.nodeFor (P : Params) (reg : Registry) (d : Addr) : Node := (reg.lookup d).getD (freshNode P d)

/-- The registry after resolving an address: an existing entry stays as it is (R135). -/
def Registry.resolve (P : Params) (reg : Registry) (d : Addr) : Registry :=
  match reg.lookup d with
  | some _ => reg
  | none => reg.store d (freshNode P d)

/-- Resolving addresses one after the other, in list order (R138, R140). -/
def Registry.resolveAll (P : Params) (reg : Registry) (ds : List Addr) : Registry :=
  ds.foldl (fun reg d => reg.resolve P d) reg

/-! ### The transport and draws -/

/-- The first answer listed, or a free value; with the list left and the count of draws (log entry 6). -/
def nextAnswer {α : Type} (listed : List α) (free : Nat → α) (draws : Nat) : α × List α × Nat :=
  match listed with
  | a :: rest => (a, rest, draws)
  | [] => (free draws, [], draws + 1)

/-- The request that obtains the handle (R131). -/
def obtainRequest (cfg : LinkCfg) : TransportRequest := .obtain cfg.channel cfg.receiveOwn cfg.fdEnabled

/-- Obtaining the transport handle (R130, R131): the answer, and the state with that answer used up. -/
def State.obtain (s : State) (q : TransportRequest) : OpenAnswer × State :=
  let n := nextAnswer s.openIn (Config.openAnswer q) s.draws
  (n.1, { s with openIn := n.2.1, draws := n.2.2 })

/-- `TX.write` (R165). -/
def State.txWrite (s : State) (q : TransportRequest) : WriteAnswer × State :=
  let n := nextAnswer s.writeIn (Config.writeAnswer q) s.draws
  (n.1, { s with writeIn := n.2.1, draws := n.2.2 })

/-- `RX.read` (R166): an answer once given is not given again (R38; log entry 18). -/
def State.rxRead (s : State) (q : TransportRequest) : ReadAnswer × State :=
  let n := nextAnswer s.readIn (Config.readAnswer q) s.draws
  (n.1, { s with readIn := n.2.1, draws := n.2.2 })

/-- The timestamp of a parsed message, a draw (R25, R87; log entry 7). -/
def State.drawnTimestamp (s : State) : Timestamp := Config.timestamp s.draws

/-- One more free value has been drawn. -/
def State.drawn (s : State) : State := { s with draws := s.draws + 1 }

/-! ### The command port -/

/-- The state with another list of transfers waiting. -/
def State.withPort (s : State) (port : List Transfer) : State := { s with port := port }

/-- The next transfer and the state after taking it; none when the host has issued nothing (R11, R40). -/
def State.fetch (s : State) : Option (Transfer × State) :=
  match s.port with
  | [] => none
  | t :: rest => some (t, s.withPort rest)

end Sys2Proof.Machine
end

