-- ==== Sys2Proof/Machine/ArbitrationId.lean ====
section
/-!
DEFINITION. `AID.ENC` and `AID.DEC` (40_arbitration_id.md R70 to R78) over the field layout of R45 to R47. Pure.
-/

namespace Sys2Proof.Machine

open Sys2Proof

/-- R71: `AID.VALID`. -/
def aidValid (priority source : Nat) (dests : List Nat) : Bool :=
  priority ≤ prioMax && source ≤ addrMax && dests.length ≤ destMax && dests.all fun d => d ≤ addrMax

/-- R46: the fields of `v29` shifted to their places and or-ed. -/
def assemble (p s q d0 d1 d2 : Nat) : V29 :=
  BitVec.ofNat 29 ((p <<< 26) ||| (s <<< 20) ||| (q <<< 18) ||| (d0 <<< 12) ||| (d1 <<< 6) ||| d2)

/-- R47: the fields of `v29` by shift and mask. -/
def extractFields (v : V29) : ArbFields :=
  { p := BitVec.ofNat 3 (v.toNat >>> 26 &&& 0x7)
    s := BitVec.ofNat 6 (v.toNat >>> 20 &&& 0x3F)
    q := BitVec.ofNat 2 (v.toNat >>> 18 &&& 0x3)
    d0 := BitVec.ofNat 6 (v.toNat >>> 12 &&& 0x3F)
    d1 := BitVec.ofNat 6 (v.toNat >>> 6 &&& 0x3F)
    d2 := BitVec.ofNat 6 (v.toNat &&& 0x3F) }

/-- R70. A slot beyond the list is 0. -/
def aidEncode (priority source : Nat) (dests : List Nat) : Except Err V29 :=
  if aidValid priority source dests then
    .ok (assemble priority source dests.length (dests.getD 0 0) (dests.getD 1 0) (dests.getD 2 0))
  else .error (.malformedMessage .badArbitrationId)

/-- R72: the first `q` slots, in order. -/
def aidDecode (v : V29) : ArbId :=
  let f := extractFields v
  { priority := f.p, source := f.s, dests := [f.d0, f.d1, f.d2].take f.q.toNat }

/-- R70 on the fields of an arbitration id. -/
def encodeAid (aid : ArbId) : Except Err V29 :=
  aidEncode aid.priority.toNat aid.source.toNat (aid.dests.map BitVec.toNat)

/-- `AID.ENC` (R70). -/
def execAidEnc (priority source : Nat) (dests : List Nat) (s : State) : Host.Outcome State Fault Refusal :=
  .next (s.reply ((aidEncode priority source dests).map .v29))

/-- `AID.DEC` (R72). -/
def execAidDec (v : V29) (s : State) : Host.Outcome State Fault Refusal :=
  .next (s.answer (.arbId (aidDecode v)))

end Sys2Proof.Machine
end

