-- ==== Sys2Proof/Machine/Authentication.lean ====
section
/-!
DEFINITION. `KEY.DERIVE`, `MAC.TAG` and `MAC.VERIFY` (42_authentication.md R95 to R105). Pure.
-/

namespace Sys2Proof.Machine

open Sys2Proof

/-- R98: the trailing `TAG_LEN` bytes of the keyed hash of the rendered payload. -/
def macTag (P : Params) (key payload : List Byte) : List Byte := lastN P.tagLen (P.mac key (P.hex payload))

/-- R100: byte-for-byte comparison; a tag of another length never verifies. -/
def macVerify (P : Params) (key payload tag : List Byte) : Bool := tag == macTag P key payload

/-- `KEY.DERIVE` on a state (R95). -/
def keyDeriveCmd (P : Params) (a : Addr) (s : State) : State := s.answer (.key (P.keyProv a))

/-- `MAC.TAG` on a state (R98). -/
def macTagCmd (P : Params) (key payload : List Byte) (s : State) : State := s.answer (.tag (macTag P key payload))

/-- `MAC.VERIFY` on a state (R100). -/
def macVerifyCmd (P : Params) (key payload tag : List Byte) (s : State) : State :=
  s.answer (.verdict (macVerify P key payload tag))

/-- `KEY.DERIVE` (R95). -/
def execKeyDerive (a : Addr) (s : State) : Host.Outcome State Fault Refusal :=
  .next (keyDeriveCmd params a s)

/-- `MAC.TAG` (R98). -/
def execMacTag (key payload : List Byte) (s : State) : Host.Outcome State Fault Refusal :=
  .next (macTagCmd params key payload s)

/-- `MAC.VERIFY` (R100). -/
def execMacVerify (key payload tag : List Byte) (s : State) : Host.Outcome State Fault Refusal :=
  .next (macVerifyCmd params key payload tag s)

end Sys2Proof.Machine
end

