-- ==== Sys2Proof/Machine/FrameCodec.lean ====
section
/-!
DEFINITION. `FRM.SEL`, `FRM.BUILD` and `FRM.PARSE` (41_frame_codec.md R80 to R91) over the buffer layouts of R48 to
R54.
-/

namespace Sys2Proof.Machine

open Sys2Proof

/-- R80 to R82: the shape for a combined length, `fdEnabled` being `CFG.flexibleDataRateEnabled`. -/
def frmSel (fdEnabled : Bool) (n : Nat) : Except Err FrameKind :=
  if n ≤ classicCap then .ok .classic
  else if fdCap < n then .error (.malformedMessage .payloadTooLong)
  else if fdEnabled then .ok .fd
  else .error (.malformedMessage .payloadTooLong)

/-- The data region of a shape (R50, R51). -/
def FrameKind.cap : FrameKind → Nat
  | .classic => classicCap
  | .fd => fdCap

/-- R48, on build: bit 31 set, bits 30:29 clear. -/
def identBuild (v : V29) : Ident := v.setWidth 32 ||| extFlag

/-- R48, on parse: `ident & 0x1FFFFFFF`. -/
def identParse (i : Ident) : V29 := (i &&& 0x1FFFFFFF#32).setWidth 29

/-- R50, R51: identifier, length, three bytes of padding or of flags and reserved bytes (all zero), body, zero fill to
the shape's capacity. -/
def layFrame (P : Params) (k : FrameKind) (ident : Ident) (body : List Byte) : List Byte :=
  identBytes P.idByteOrder ident ++ [BitVec.ofNat 8 body.length] ++ zeros 3 ++ body ++ zeros (k.cap - body.length)

/-- R84: as many tags as destinations, each of `TAG_LEN` bytes. -/
def tagsMatch (P : Params) (m : Message) : Bool :=
  m.tags.length == m.aid.dests.length && m.tags.all fun t => t.length == P.tagLen

/-- R83. -/
def frmBuild (P : Params) (fdEnabled : Bool) (m : Message) : Except Err (List Byte) :=
  if tagsMatch P m then
    let body := m.payload ++ m.tags.flatten
    match frmSel fdEnabled body.length with
    | .error e => .error e
    | .ok k =>
      match encodeAid m.aid with
      | .error e => .error e
      | .ok v => .ok (layFrame P k (identBuild v) body)
  else .error (.malformedMessage .badTags)

/-- R49, R53: the buffer's size tells the shape; any other size is refused. -/
def kindOfSize (size : Nat) : Except Err FrameKind :=
  if size = classicSize then .ok .classic
  else if size = fdSize then .ok .fd
  else .error (.malformedFrame .badSize)

/-- R50, R51, R91, on parse: the identifier, the length byte and that many bytes of the data region. -/
def frameView (P : Params) (k : FrameKind) (buf : List Byte) : Except Err FrameView :=
  let len := buf.getD 4 0
  if k.cap < len.toNat then .error (.malformedFrame .badLength)
  else .ok { ident := identOfBytes P.idByteOrder (buf.take 4), length := len, body := (buf.drop 8).take len.toNat }

/-- The view of a buffer whose size must be that of the shape (R37, R53). -/
def frameViewOf (P : Params) (k : FrameKind) (buf : List Byte) : Except Err FrameView :=
  if kindOfSize buf.length = .ok k then frameView P k buf else .error (.malformedFrame .badSize)

/-- R52: tag `i` of a tag region. -/
def tagAt (P : Params) (region : List Byte) (i : Nat) : List Byte := (region.drop (i * P.tagLen)).take P.tagLen

/-- R52: payload and tags of a view, for `q` destinations. -/
def splitBody (P : Params) (q : Nat) (body : List Byte) : List Byte × List (List Byte) :=
  let region := body.drop (body.length - q * P.tagLen)
  (body.take (body.length - q * P.tagLen), (List.range q).map (tagAt P region))

/-- R86, with the timestamp that was drawn (R87). -/
def frmParse (P : Params) (ts : Timestamp) (buf : List Byte) : Except Err Message :=
  match kindOfSize buf.length with
  | .error e => .error e
  | .ok k =>
    match frameView P k buf with
    | .error e => .error e
    | .ok v =>
      let aid := aidDecode (identParse v.ident)
      if v.length.toNat < aid.dests.length * P.tagLen then .error (.malformedFrame .badLength)
      else
        let split := splitBody P aid.dests.length v.body
        .ok { timestamp := ts, aid := aid, payload := split.1, tags := split.2, accepted := false }

/-- `FRM.SEL` on a state (R13, R80). -/
def frmSelCmd (n : Nat) (s : State) : State :=
  whenConstructed s (s.reply ((frmSel s.cfg.fdEnabled n).map .kind))

/-- `FRM.BUILD` on a state (R13, R83). -/
def frmBuildCmd (P : Params) (m : Message) (s : State) : State :=
  whenConstructed s (s.reply ((frmBuild P s.cfg.fdEnabled m).map .buffer))

/-- `FRM.PARSE` on a state (R86); a timestamp is drawn only for a message that exists. -/
def frmParseCmd (P : Params) (buf : List Byte) (s : State) : State :=
  match frmParse P s.drawnTimestamp buf with
  | .error e => s.raise e none
  | .ok m => s.drawn.answer (.message m)

/-- `FRM.SEL` (R80). -/
def execFrmSel (n : Nat) (s : State) : Host.Outcome State Fault Refusal := .next (frmSelCmd n s)

/-- `FRM.BUILD` (R83). -/
def execFrmBuild (m : Message) (s : State) : Host.Outcome State Fault Refusal := .next (frmBuildCmd params m s)

/-- `FRM.PARSE` (R86). -/
def execFrmParse (buf : List Byte) (s : State) : Host.Outcome State Fault Refusal := .next (frmParseCmd params buf s)

end Sys2Proof.Machine
end

