-- ==== Sys2Proof/Machine/DataFormats.lean ====
section
/-!
DEFINITION. The five data encodings of spec/opcode_table.json: `ARBID` (R45 to R47), `IDENT.BUILD` and `IDENT.PARSE`
(R48), `FRAME.CLASSIC` (R50), `FRAME.FD` (R51). They are formats, not commands of R56: a word of one, given to the
block, is answered by the conversion its rule gives; no state is read or written (log entry 3).
-/

namespace Sys2Proof.Machine

open Sys2Proof

/-- `ARBID` (R45, R47): the six fields. -/
def execArbid (v : V29) (s : State) : Host.Outcome State Fault Refusal := .next (s.answer (.fields (extractFields v)))

/-- `IDENT.BUILD` (R48, on build): the identifier of an encoded arbitration id. -/
def execIdentBuild (v : V29) (s : State) : Host.Outcome State Fault Refusal := .next (s.answer (.ident (identBuild v)))

/-- `IDENT.PARSE` (R48, on parse): the encoded arbitration id of an identifier. -/
def execIdentParse (i : Ident) (s : State) : Host.Outcome State Fault Refusal := .next (s.answer (.v29 (identParse i)))

/-- The view of a buffer of one shape, on a state (R50, R51, R91). -/
def frameViewCmd (P : Params) (k : FrameKind) (buf : List Byte) (s : State) : State :=
  s.reply ((frameViewOf P k buf).map .view)

/-- `FRAME.CLASSIC` (R50, R91): the view of a 16-byte buffer. -/
def execFrameClassic (buf : List Byte) (s : State) : Host.Outcome State Fault Refusal :=
  .next (frameViewCmd params .classic buf s)

/-- `FRAME.FD` (R51, R91): the view of a 72-byte buffer. -/
def execFrameFd (buf : List Byte) (s : State) : Host.Outcome State Fault Refusal :=
  .next (frameViewCmd params .fd buf s)

end Sys2Proof.Machine
end

