-- ==== Sys2Proof/Machine/ReplayTable.lean ====
section
/-!
DEFINITION. `RPT.ENTRY`, `RPT.RECORD` and `RPT.CURRENT` (43_replay_table.md R110 to R117).
-/

namespace Sys2Proof.Machine

open Sys2Proof

/-- R110: a table is reached through a Node that exists; the refusals are `NotConstructed` (R13) and `NoSuchNode`. -/
def withNode (a : Addr) (s : State) (f : Node → State) : State :=
  whenConstructed s (match s.reg.lookup a with
    | none => s.raise .noSuchNode none
    | some n => f n)

/-- `RPT[a][k] <- c` in the registry: the one entry, no other, no other Node (R112). -/
def recordIn (reg : Registry) (a : Addr) (n : Node) (k : ChannelKey) (c : Nat) : Registry :=
  reg.store a { n with rpt := n.rpt.store k c }

/-- `RPT.ENTRY` (R111). -/
def execRptEntry (a src : Addr) (dests : List Addr) (s : State) : Host.Outcome State Fault Refusal :=
  .next (withNode a s fun n => s.answer (.entry (n.rpt.lookup (channelKey src dests))))

/-- `RPT.RECORD` (R112): unconditional. -/
def execRptRecord (a src : Addr) (dests : List Addr) (c : Nat) (s : State) : Host.Outcome State Fault Refusal :=
  .next (withNode a s fun n => (s.withReg (recordIn s.reg a n (channelKey src dests) c)).answer .done)

/-- `RPT.CURRENT` (R113). -/
def execRptCurrent (a src : Addr) (dests : List Addr) (s : State) : Host.Outcome State Fault Refusal :=
  .next (withNode a s fun n => s.answer (.counter (n.rpt.current (channelKey src dests))))

end Sys2Proof.Machine
end

