-- ==== Sys2Proof/Machine/Node.lean ====
section
/-!
DEFINITION. `NODE.VERIFY` (44_node.md R120 to R129).
-/

namespace Sys2Proof.Machine

open Sys2Proof

/-- R121, step 1: the message carries, at the position of `a` among its destinations, a tag made with the Node's key. -/
def authentic (P : Params) (a : Addr) (n : Node) (m : Message) : Bool :=
  match tagFor a m with
  | none => false
  | some t => macVerify P n.key m.payload t

/-- R121, step 2: the carried counter is at least the stored one, as naturals (R123). -/
def freshness (P : Params) (n : Node) (m : Message) : Cause :=
  match carriedCounter P m.payload with
  | none => .noCounter
  | some c => if n.rpt.current (messageChannel m) ≤ c then .accepted else .replay

/-- R121: freshness is tested only after authentication (R161). -/
def judge (P : Params) (a : Addr) (n : Node) (m : Message) : Cause :=
  if authentic P a n m then freshness P n m else .authFailure

/-- R121, R124: on acceptance the carried counter itself is stored under the message's channel; else nothing is. -/
def registryAfter (P : Params) (reg : Registry) (a : Addr) (n : Node) (m : Message) : Registry :=
  match judge P a n m, carriedCounter P m.payload with
  | .accepted, some c => recordIn reg a n (messageChannel m) c
  | _, _ => reg

/-- `NODE.VERIFY` on a state (R13, R121). -/
def nodeVerifyCmd (P : Params) (a : Addr) (m : Message) (s : State) : State :=
  withNode a s fun n =>
    (s.withReg (registryAfter P s.reg a n m)).answer (.verified (withAccepted m (judge P a n m)) (judge P a n m))

/-- `NODE.VERIFY` (R121). -/
def execNodeVerify (a : Addr) (m : Message) (s : State) : Host.Outcome State Fault Refusal :=
  .next (nodeVerifyCmd params a m s)

end Sys2Proof.Machine
end

