-- ==== Sys2Proof/Machine/SecureLink.lean ====
section
/-!
DEFINITION. `MSG.NEW`, `LINK.CONSTRUCT`, `LINK.CLAIM`, `LINK.RESOLVE`, `LINK.SEND` and `LINK.RECV`
(45_secure_link.md R130 to R144).
-/

namespace Sys2Proof.Machine

open Sys2Proof

/-! ### Address claim and construction -/

/-- R132, the loop: the least natural from `n` on that is not claimed, looking at `fuel` candidates. -/
def claimFrom (claimed : List Nat) : Nat → Nat → Nat
  | 0, n => n
  | fuel + 1, n => if claimed.contains n then claimFrom claimed fuel (n + 1) else n

/-- R132: at most `claimed.length` candidates from 0 on can be claimed. -/
def claim (claimed : List Nat) : Nat := claimFrom claimed claimed.length 0

/-- R130: everything written, after the transport gave the handle. -/
def State.construct (P : Params) (s : State) (cfg : LinkCfg) (a : Addr) (th : Handle) : State :=
  { s with
    constructed := true
    cfg := cfg
    localAddr := a
    reg := Registry.store [] a (freshNode P a)
    th := th }

/-- `LINK.CONSTRUCT` on a state (R130, R133). -/
def linkConstructCmd (P : Params) (cfg : LinkCfg) (s : State) : State :=
  if s.constructed then s.raise .alreadyConstructed none
  else
    let a := claim (addrMembers cfg.claimed)
    if addrMax < a then s.raise .addressSpaceExhausted none
    else
      let q := obtainRequest cfg
      let o := s.obtain q
      match o.1 with
      | .failure => o.2.raise .transportFailure (some q)
      | .handle th => (o.2.construct P cfg (BitVec.ofNat 6 a) th).respond .ok (some q)

/-! ### Message construction -/

/-- R134. -/
def msgNew (P : Params) (fdEnabled : Bool) (ts : Timestamp) (priority source : Nat) (dests payload : List Nat) :
    Except Err Message :=
  if !aidValid priority source dests then .error (.malformedMessage .badArbitrationId)
  else if payload.any fun b => 255 < b then .error (.malformedMessage .byteOutOfRange)
  else if (if fdEnabled then fdCap else classicCap) < payload.length + dests.length * P.tagLen then
    .error (.malformedMessage .payloadTooLong)
  else .ok
    { timestamp := ts
      aid :=
        { priority := BitVec.ofNat 3 priority
          source := BitVec.ofNat 6 source
          dests := dests.map (BitVec.ofNat 6) }
      payload := payload.map (BitVec.ofNat 8)
      tags := []
      accepted := false }

/-- `MSG.NEW` on a state (R134). -/
def msgNewCmd (P : Params) (ts : Timestamp) (priority source : Nat) (dests payload : List Nat) (s : State) : State :=
  whenConstructed s (s.reply ((msgNew P s.cfg.fdEnabled ts priority source dests payload).map .message))

/-! ### Resolving -/

/-- `LINK.RESOLVE` on a state (R135). -/
def linkResolveCmd (P : Params) (d : Addr) (s : State) : State :=
  whenConstructed s ((s.withReg (s.reg.resolve P d)).answer (.node (s.reg.nodeFor P d)))

/-! ### Sending -/

/-- R101, R138: one tag per destination, in list order, each with that destination's key. The key of an address is the
same before and after other addresses are resolved, so the tags are read from the registry as the loop leaves it. -/
def tagsFor (P : Params) (reg : Registry) (payload : List Byte) (ds : List Addr) : List (List Byte) :=
  ds.map fun d => macTag P (reg.nodeFor P d).key payload

/-- R138: the message as transmitted. -/
def outgoing (P : Params) (s : State) (m : Message) : Message :=
  { m with
    aid := { m.aid with source := s.localAddr }
    tags := tagsFor P (s.reg.resolveAll P m.aid.dests) m.payload m.aid.dests }

/-- R138: the last steps of a send, once the buffer is built: the write, and its answer as the result. -/
def transmit (s : State) (m : Message) (buf : List Byte) : State :=
  let q := TransportRequest.write s.th buf
  let w := s.txWrite q
  match w.1 with
  | .failure => w.2.respond .transportFailure (some q)
  | .written n => w.2.respond (.sent m n) (some q)

/-- `LINK.SEND` on a state (R138, R139). The last error branch is for states and messages no run reaches (log entry
15): a message that passed the checks can be built. -/
def linkSendCmd (P : Params) (m : Message) (s : State) : State :=
  whenConstructed s <|
    if m.tags ≠ [] then s.raise (.malformedMessage .badTags) none
    else
      match frmSel s.cfg.fdEnabled (m.payload.length + m.aid.dests.length * P.tagLen) with
      | .error e => s.raise e none
      | .ok _ =>
        match frmBuild P s.cfg.fdEnabled (outgoing P s m) with
        | .error e => s.raise e none
        | .ok buf => transmit (s.withReg (s.reg.resolveAll P m.aid.dests)) (outgoing P s m) buf

/-! ### Receiving -/

/-- R140: what a receive does with a message it parsed: resolve the source and each destination, then verify at the
local Node. The `none` branch is for states no run reaches (R28 (i); log entry 15). -/
def deliver (P : Params) (s : State) (q : TransportRequest) (m : Message) : State :=
  let reg := s.reg.resolveAll P (m.aid.source :: m.aid.dests)
  match reg.lookup s.localAddr with
  | none => s.raise .noSuchNode (some q)
  | some n =>
    (s.withReg (registryAfter P reg s.localAddr n m)).respond
      (.received (withAccepted m (judge P s.localAddr n m)) (judge P s.localAddr n m)) (some q)

/-- R140: what a receive does with the transport's answer. -/
def received (P : Params) (s : State) (q : TransportRequest) (r : ReadAnswer) : State :=
  match r with
  | .none => s.respond .noMessage (some q)
  | .failure => s.respond .transportFailure (some q)
  | .frame buf =>
    match frmParse P s.drawnTimestamp buf with
    | .error e => s.raise e (some q)
    | .ok m => deliver P s.drawn q m

/-- `LINK.RECV` on a state (R140 to R142). -/
def linkRecvCmd (P : Params) (t : Timeout) (s : State) : State :=
  whenConstructed s <|
    let q := TransportRequest.read s.th t
    let r := s.rxRead q
    received P r.2 q r.1

/-! ### The meanings -/

/-- `MSG.NEW` (R134). -/
def execMsgNew (ts : Timestamp) (priority source : Nat) (dests payload : List Nat) (s : State) :
    Host.Outcome State Fault Refusal :=
  .next (msgNewCmd params ts priority source dests payload s)

/-- `LINK.CONSTRUCT` (R130). -/
def execLinkConstruct (cfg : LinkCfg) (s : State) : Host.Outcome State Fault Refusal :=
  .next (linkConstructCmd params cfg s)

/-- `LINK.CLAIM` (R132). -/
def execLinkClaim (claimed : List Nat) (s : State) : Host.Outcome State Fault Refusal :=
  .next (s.answer (.address (claim claimed)))

/-- `LINK.RESOLVE` (R135). -/
def execLinkResolve (d : Addr) (s : State) : Host.Outcome State Fault Refusal := .next (linkResolveCmd params d s)

/-- `LINK.SEND` (R138). -/
def execLinkSend (m : Message) (s : State) : Host.Outcome State Fault Refusal := .next (linkSendCmd params m s)

/-- `LINK.RECV` (R140). -/
def execLinkRecv (t : Timeout) (s : State) : Host.Outcome State Fault Refusal := .next (linkRecvCmd params t s)

end Sys2Proof.Machine
end

