-- ==== Sys2Proof/Machine/Dispatch.lean ====
section
/-!
DEFINITION. One arm per constructor of `Instr`: the command, and the meaning it calls.
-/

namespace Sys2Proof.Machine

open Sys2Proof

def exec (i : Instr) (s : State) : Host.Outcome State Fault Refusal :=
  match i with
  | .aidEnc p src ds => Sys2Proof.Machine.execAidEnc p src ds s
  | .aidDec v => Sys2Proof.Machine.execAidDec v s
  | .frmSel n => Sys2Proof.Machine.execFrmSel n s
  | .frmBuild m => Sys2Proof.Machine.execFrmBuild m s
  | .frmParse buf => Sys2Proof.Machine.execFrmParse buf s
  | .keyDerive a => Sys2Proof.Machine.execKeyDerive a s
  | .macTag k p => Sys2Proof.Machine.execMacTag k p s
  | .macVerify k p t => Sys2Proof.Machine.execMacVerify k p t s
  | .rptEntry a src ds => Sys2Proof.Machine.execRptEntry a src ds s
  | .rptRecord a src ds c => Sys2Proof.Machine.execRptRecord a src ds c s
  | .rptCurrent a src ds => Sys2Proof.Machine.execRptCurrent a src ds s
  | .nodeVerify a m => Sys2Proof.Machine.execNodeVerify a m s
  | .msgNew ts p src ds payload => Sys2Proof.Machine.execMsgNew ts p src ds payload s
  | .linkConstruct cfg => Sys2Proof.Machine.execLinkConstruct cfg s
  | .linkClaim claimed => Sys2Proof.Machine.execLinkClaim claimed s
  | .linkResolve d => Sys2Proof.Machine.execLinkResolve d s
  | .linkSend m => Sys2Proof.Machine.execLinkSend m s
  | .linkRecv t => Sys2Proof.Machine.execLinkRecv t s
  | .arbid v => Sys2Proof.Machine.execArbid v s
  | .identBuild v => Sys2Proof.Machine.execIdentBuild v s
  | .identParse ident => Sys2Proof.Machine.execIdentParse ident s
  | .frameClassic buf => Sys2Proof.Machine.execFrameClassic buf s
  | .frameFd buf => Sys2Proof.Machine.execFrameFd buf s

end Sys2Proof.Machine
end

