-- ==== Sys2Proof/Machine/Step.lean ====
section
/-!
DEFINITION. One step of the block: take the next transfer the host has issued, decode it, execute it (R11, R36, R40).
With nothing issued the block does nothing (log entry 1).
-/

namespace Sys2Proof.Machine

open Sys2Proof

def step (s : State) : Host.Outcome State Fault Refusal :=
  match s.fetch with
  | none => .next s
  | some (t, s') =>
    match decode t with
    | .ok i => exec i s'
    | .error (.unknownCode code) => .refused (.unknownCode code)
    | .error e => .fault (.brokenTransfer e)

/-- The state in which the next step takes this word of spec/opcode_table.json (log entries 1, 22). -/
def State.withFetchWord (s : State) (nbits w : Nat) : State := s.withPort (tableTransfer nbits w :: s.port)

end Sys2Proof.Machine
end

