-- ==== Sys2Proof/Machine/Parametric.lean ====
section
/-!
DEFINITION. The step relation with its parameters as an argument (R27): `TAG_LEN`, `DIGEST_LEN`, `MAC`, `KEYPROV`,
`HEX`, `CTR_INDEX` and `ID_BYTE_ORDER` are whatever the record `P` says, fixed for the life of the instance, and no
command can change them, since they are no part of the state. `exec` and `step` are the instance at `params`, whose
last three have the values the spec decides (R97, R122, R35) and whose first four stay open (log entries 9, 10).
-/

namespace Sys2Proof.Machine

open Sys2Proof

/-- What a command does under the parameters `P` (R27). -/
def execWith (P : Params) (i : Instr) (s : State) : Host.Outcome State Fault Refusal :=
  match i with
  | .aidEnc p src ds => execAidEnc p src ds s
  | .aidDec v => execAidDec v s
  | .frmSel n => execFrmSel n s
  | .frmBuild m => .next (frmBuildCmd P m s)
  | .frmParse buf => .next (frmParseCmd P buf s)
  | .keyDerive a => .next (keyDeriveCmd P a s)
  | .macTag k p => .next (macTagCmd P k p s)
  | .macVerify k p t => .next (macVerifyCmd P k p t s)
  | .rptEntry a src ds => execRptEntry a src ds s
  | .rptRecord a src ds c => execRptRecord a src ds c s
  | .rptCurrent a src ds => execRptCurrent a src ds s
  | .nodeVerify a m => .next (nodeVerifyCmd P a m s)
  | .msgNew ts p src ds payload => .next (msgNewCmd P ts p src ds payload s)
  | .linkConstruct cfg => .next (linkConstructCmd P cfg s)
  | .linkClaim claimed => execLinkClaim claimed s
  | .linkResolve d => .next (linkResolveCmd P d s)
  | .linkSend m => .next (linkSendCmd P m s)
  | .linkRecv t => .next (linkRecvCmd P t s)
  | .arbid v => execArbid v s
  | .identBuild v => execIdentBuild v s
  | .identParse ident => execIdentParse ident s
  | .frameClassic buf => .next (frameViewCmd P .classic buf s)
  | .frameFd buf => .next (frameViewCmd P .fd buf s)

/-- One step under the parameters `P` (R27). -/
def stepWith (P : Params) (s : State) : Host.Outcome State Fault Refusal :=
  match s.fetch with
  | none => .next s
  | some (t, s') =>
    match decode t with
    | .ok i => execWith P i s'
    | .error (.unknownCode code) => .refused (.unknownCode code)
    | .error e => .fault (.brokenTransfer e)

end Sys2Proof.Machine
end

