-- ==== Sys2Proof/Safety.lean ====
section
/-!
DEFINITION. What counts as a safe run, in the terms the claims use: the block's state as one value (R12), the
invariant of R28 with the canonical form of the keyed storage, and what a run must not end in.
-/

namespace Sys2Proof.Machine

open Sys2Proof

/-- The state of the block, ports left out: the tuple of R12. -/
def State.block (s : State) : Bool × LinkCfg × Addr × Registry × Handle :=
  (s.constructed, s.cfg, s.localAddr, s.reg, s.th)

/-- What waits at the ports: commands, the transport's answers, and the count of draws. -/
def State.inputs (s : State) : List Transfer × List OpenAnswer × List WriteAnswer × List ReadAnswer × Nat :=
  (s.port, s.openIn, s.writeIn, s.readIn, s.draws)

/-- The canonical form of the keyed storage (log entry 12): registry and tables list strictly rising keys. -/
abbrev Registry.wf (reg : Registry) : Prop :=
  KMap.wf addrOrd reg ∧ ∀ e ∈ reg, KMap.wf channelOrd e.2.rpt

/-- R28 (i): once constructed, the local Node is present. -/
def State.localPresent (s : State) : Prop :=
  s.constructed = true → ∃ n, s.reg.lookup s.localAddr = some n

/-- R28 (ii): every present Node stands under its own address with the key derived from it. -/
def State.keysDerived (s : State) : Prop :=
  ∀ a n, s.reg.lookup a = some n → n.address = a ∧ n.key = params.keyProv a

/-- Before construction the registry is empty: the model's choice for what R29 leaves unspecified (log entry 8). -/
def State.emptyBefore (s : State) : Prop := s.constructed = false → s.reg = []

/-- The invariant of the machine. -/
def State.Inv (s : State) : Prop :=
  s.reg.wf ∧ s.localPresent ∧ s.keysDerived ∧ s.emptyBefore

/-- A step goes on: neither a fault nor a refusal of the model. Errors of the spec go on (R150, R160). -/
def Continues (o : Host.Outcome State Fault Refusal) : Prop := ∃ t, o = .next t

/-! ### Terms of the claims -/

/-- R45: the number whose six fields are given. -/
def arbNumber (p s q d0 d1 d2 : Nat) : Nat := p * 2 ^ 26 + s * 2 ^ 20 + q * 2 ^ 18 + d0 * 2 ^ 12 + d1 * 2 ^ 6 + d2

/-- R45: the number of an arbitration id; a slot beyond its destinations is 0. -/
def aidNumber (aid : ArbId) : Nat :=
  let ds := aid.dests.map BitVec.toNat
  arbNumber aid.priority.toNat aid.source.toNat ds.length (ds.getD 0 0) (ds.getD 1 0) (ds.getD 2 0)

/-- R71: the four range conditions. -/
abbrev InRange (p src : Nat) (ds : List Nat) : Prop := p ≤ 7 ∧ src ≤ 63 ∧ ds.length ≤ 3 ∧ ∀ d ∈ ds, d ≤ 63

/-- R84: one tag of `TAG_LEN` bytes per destination. -/
abbrev TagsFitFor (P : Params) (m : Message) : Prop :=
  m.tags.length = m.aid.dests.length ∧ ∀ t ∈ m.tags, t.length = P.tagLen

/-- R84 for the machine's own parameters. -/
abbrev TagsFit (m : Message) : Prop := TagsFitFor params m

/-- R80 to R82: a combined length that some shape can hold. -/
abbrev Fits (fdEnabled : Bool) (n : Nat) : Prop := n ≤ 8 ∨ (n ≤ 64 ∧ fdEnabled = true)

/-- R121, R125: at the first position of `a` among the destinations stands the tag that `key` gives the payload. -/
def CarriesTagFor (P : Params) (a : Addr) (key : List Byte) (m : Message) : Prop :=
  ∃ i : Nat, m.aid.dests[i]? = some a ∧ (∀ j, j < i → m.aid.dests[j]? ≠ some a) ∧
    m.tags[i]? = some (macTag P key m.payload)

/-- R121, R125 for the machine's own parameters. -/
abbrev CarriesTag (a : Addr) (key : List Byte) (m : Message) : Prop := CarriesTagFor params a key m

/-- R86: a buffer that the parser accepts: one of the two sizes, a length byte the shape holds and the tags fit. -/
abbrev Parses (buf : List Byte) : Prop :=
  (buf.length = 16 ∨ buf.length = 72) ∧ (buf.getD 4 0).toNat ≤ (if buf.length = 16 then 8 else 64) ∧
    leNat (buf.take 4) % 2 ^ 29 / 2 ^ 18 % 4 * params.tagLen ≤ (buf.getD 4 0).toNat

/-- R86, R35: what the message of an accepted buffer holds, but for its timestamp, which is a draw. -/
structure HoldsMessage (buf : List Byte) (m : Message) : Prop where
  priority : m.aid.priority.toNat = leNat (buf.take 4) % 2 ^ 29 / 2 ^ 26
  source : m.aid.source.toNat = leNat (buf.take 4) % 2 ^ 29 / 2 ^ 20 % 64
  dests : m.aid.dests.map BitVec.toNat =
    [leNat (buf.take 4) % 2 ^ 29 / 2 ^ 12 % 64, leNat (buf.take 4) % 2 ^ 29 / 2 ^ 6 % 64,
      leNat (buf.take 4) % 2 ^ 29 % 64].take (leNat (buf.take 4) % 2 ^ 29 / 2 ^ 18 % 4)
  payload : m.payload = (buf.drop 8).take ((buf.getD 4 0).toNat - m.aid.dests.length * params.tagLen)
  tags : m.tags = (List.range m.aid.dests.length).map fun i =>
    (buf.drop (8 + ((buf.getD 4 0).toNat - m.aid.dests.length * params.tagLen) + i * params.tagLen)).take params.tagLen
  accepted : m.accepted = false

/-- R28 (ii) under the parameters `P`: every present Node stands under its own address with its derived key. -/
def KeysFrom (P : Params) (reg : Registry) : Prop := ∀ a n, reg.lookup a = some n → n.address = a ∧ n.key = P.keyProv a

/-- R13: the commands that touch no block state; the data encodings with them (log entry 3). -/
def isPure : Instr → Bool
  | .aidEnc _ _ _ | .aidDec _ | .frmParse _ | .keyDerive _ | .macTag _ _ | .macVerify _ _ _ | .linkClaim _ => true
  | .arbid _ | .identBuild _ | .identParse _ | .frameClassic _ | .frameFd _ => true
  | .frmSel _ | .frmBuild _ | .rptEntry _ _ _ | .rptRecord _ _ _ _ | .rptCurrent _ _ _ | .nodeVerify _ _
  | .msgNew _ _ _ _ _ | .linkConstruct _ | .linkResolve _ | .linkSend _ | .linkRecv _ => false

/-- The commands that read block state and write none (the "State" column of R56). -/
def isReader : Instr → Bool
  | .frmSel _ | .frmBuild _ | .rptEntry _ _ _ | .rptCurrent _ _ _ | .msgNew _ _ _ _ _ => true
  | .aidEnc _ _ _ | .aidDec _ | .frmParse _ | .keyDerive _ | .macTag _ _ | .macVerify _ _ _ | .linkClaim _
  | .arbid _ | .identBuild _ | .identParse _ | .frameClassic _ | .frameFd _
  | .rptRecord _ _ _ _ | .nodeVerify _ _ | .linkConstruct _ | .linkResolve _ | .linkSend _ | .linkRecv _ => false

/-- The 18 codes of R56. -/
def commandCodes : List Byte :=
  [0x01, 0x02, 0x10, 0x11, 0x12, 0x20, 0x21, 0x22, 0x30, 0x31, 0x32, 0x40, 0x50, 0x51, 0x52, 0x53, 0x54, 0x55]

/-- A direct `RPT.RECORD`, the one command that may lower a counter (R28 (iv), R112). -/
def isRecord : Instr → Bool
  | .rptRecord _ _ _ _ => true
  | .aidEnc _ _ _ | .aidDec _ | .frmSel _ | .frmBuild _ | .frmParse _ | .keyDerive _ | .macTag _ _ | .macVerify _ _ _
  | .rptEntry _ _ _ | .rptCurrent _ _ _ | .nodeVerify _ _ | .msgNew _ _ _ _ _ | .linkConstruct _ | .linkClaim _
  | .linkResolve _ | .linkSend _ | .linkRecv _ | .arbid _ | .identBuild _ | .identParse _ | .frameClassic _
  | .frameFd _ => false

end Sys2Proof.Machine
end

