-- ==== Sys2Proof/Certificates/Slice0/Obligations.lean ====
section
/-!
DEFINITION. The statements for the provers. Each formalises rules of spec/ (the docstring and OBLIGATIONS.json say
which); the statements about the command port's own layout rest on log entries and say so.
-/

open Sys2Proof Sys2Proof.Machine

/-! ### The command port, the decoder and the encoder -/

/-- R36, R40: a step takes one whole command and runs it; the transfer leaves the command port (log entry 1). -/
def Obligations.StepRunsTheDecodedCommand : Prop :=
  ∀ (s : State) (t : Transfer) (rest : List Transfer) (i : Instr),
    s.port = t :: rest → decode t = .ok i → step s = exec i (s.withPort rest)

/-- R11: nothing inside the block decides which operation runs next; with nothing issued it does nothing (the model's
choice, log entry 1). -/
def Obligations.StepWithNothingIssuedIsIdle : Prop :=
  ∀ s : State, s.port = [] → step s = .next s

/-- R56: a code that is not in the table names no operation; the model refuses it by name (log entry 4). -/
def Obligations.CodeOutsideTheTableIsRefused : Prop :=
  ∀ (s : State) (code : Byte) (operands : List Byte) (rest : List Transfer),
    code ∉ commandCodes → s.port = { format := .cmd8, bytes := code :: operands } :: rest →
      step s = .refused (.unknownCode code)

/-- R40: the step relation takes one whole command; the model stops on a transfer that is none (log entry 4). -/
def Obligations.BrokenTransferStops : Prop :=
  ∀ (s : State) (t : Transfer) (rest : List Transfer) (why : DecodeError), s.port = t :: rest →
    decode t = .error why → (∀ code, why ≠ .unknownCode code) → step s = .fault (.brokenTransfer why)

/-- The encoder and the decoder agree on every well-formed instruction (the layout of operands is log entry 2). -/
def Obligations.EncodedInstructionDecodes : Prop :=
  ∀ i : Instr, WellFormed i = true → decode (encode i) = .ok i

/-- Every transfer the decoder accepts is the encoding of what it answers: no other bytes name that instruction. -/
def Obligations.DecodedTransferIsItsEncoding : Prop :=
  ∀ (t : Transfer) (i : Instr), decode t = .ok i → encode i = t

/-- The decoder answers well-formed instructions only. -/
def Obligations.DecodedInstructionIsWellFormed : Prop :=
  ∀ (t : Transfer) (i : Instr), decode t = .ok i → WellFormed i = true

/-- R56, R45, R48: words of the table decode to the commands they stand for. -/
def Obligations.TableWordsDecode : Prop :=
  decodeTableWord 8 0x02 = some (.aidDec 0) ∧
  decodeTableWord 8 0x10 = some (.frmSel 0) ∧
  decodeTableWord 8 0x20 = some (.keyDerive 0) ∧
  decodeTableWord 8 0x32 = some (.rptCurrent 0 0 []) ∧
  decodeTableWord 8 0x53 = some (.linkResolve 0) ∧
  decodeTableWord 8 0x00 = none ∧
  decodeTableWord 32 0x94041000 = some (.identBuild 0x14041000#29)

/-- R150: every command ends, with one answer; what else waits at the command port stays there (R36). -/
def Obligations.EveryCommandEndsWithAnAnswer : Prop :=
  ∀ (i : Instr) (s : State), ∃ (t : State) (r : Response), exec i s = .next t ∧ t.response = some r ∧ t.port = s.port

/-! ### Arbitration ids -/

/-- R70. -/
def Obligations.AidEncPacksTheFields : Prop :=
  ∀ (p src : Nat) (ds : List Nat) (s : State),
    (InRange p src ds → ∃ v : V29, exec (.aidEnc p src ds) s = .next (s.answer (.v29 v)) ∧
      v.toNat = arbNumber p src ds.length (ds.getD 0 0) (ds.getD 1 0) (ds.getD 2 0)) ∧
    (¬ InRange p src ds →
      exec (.aidEnc p src ds) s = .next (s.raise (.malformedMessage .badArbitrationId) none))

/-- R72. -/
def Obligations.AidDecExtractsTheFields : Prop :=
  ∀ (v : V29) (s : State), ∃ aid : ArbId, exec (.aidDec v) s = .next (s.answer (.arbId aid)) ∧
    aid.priority = v.extractLsb' 26 3 ∧ aid.source = v.extractLsb' 20 6 ∧
    aid.dests = [v.extractLsb' 12 6, v.extractLsb' 6 6, v.extractLsb' 0 6].take (v.extractLsb' 18 2).toNat

/-- R73: encoding and then decoding gives the fields back, the destinations as an ordered list, repeated or not. -/
def Obligations.AidDecUndoesAidEnc : Prop :=
  ∀ (p src : Nat) (ds : List Nat) (s s' : State), InRange p src ds →
    ∃ (v : V29) (aid : ArbId), exec (.aidEnc p src ds) s = .next (s.answer (.v29 v)) ∧
      exec (.aidDec v) s' = .next (s'.answer (.arbId aid)) ∧
      aid.priority.toNat = p ∧ aid.source.toNat = src ∧ aid.dests.map BitVec.toNat = ds

/-- R75: re-encoding a decoded value clears the slots beyond the first `q`, so it gives the value back exactly when
those slots are zero. -/
def Obligations.ReencodingClearsUnusedSlots : Prop :=
  ∀ (v : V29) (s s' : State), ∃ (aid : ArbId) (w : V29),
    exec (.aidDec v) s = .next (s.answer (.arbId aid)) ∧
    exec (.aidEnc aid.priority.toNat aid.source.toNat (aid.dests.map BitVec.toNat)) s' = .next (s'.answer (.v29 w)) ∧
    w.toNat = v.toNat / 2 ^ (18 - 6 * (v.toNat / 2 ^ 18 % 4)) * 2 ^ (18 - 6 * (v.toNat / 2 ^ 18 % 4)) ∧
    (w = v ↔ v.toNat % 2 ^ (18 - 6 * (v.toNat / 2 ^ 18 % 4)) = 0)

/-- R76. -/
def Obligations.DecodedQuantityIsTheListLength : Prop :=
  ∀ (v : V29) (s t : State) (aid : ArbId), exec (.aidDec v) s = .next t → t.response = some (.arbId aid) →
    aid.dests.length = (v.extractLsb' 18 2).toNat

/-- R47: the raw fields of an encoded arbitration id (the data encoding ARBID). -/
def Obligations.ArbidAnswersTheSixFields : Prop :=
  ∀ (v : V29) (s : State), ∃ f : ArbFields, exec (.arbid v) s = .next (s.answer (.fields f)) ∧
    v.toNat = arbNumber f.p.toNat f.s.toNat f.q.toNat f.d0.toNat f.d1.toNat f.d2.toNat

/-! ### Identifiers and frames -/

/-- R48: building sets bit 31 and leaves bits 30:29 zero; parsing keeps bits 28:0 of any identifier. -/
def Obligations.IdentifierBuildAndParse : Prop :=
  (∀ (v : V29) (s : State), ∃ i : Ident, exec (.identBuild v) s = .next (s.answer (.ident i)) ∧
    i.toNat = v.toNat + 2 ^ 31) ∧
  (∀ (i : Ident) (s : State), ∃ v : V29, exec (.identParse i) s = .next (s.answer (.v29 v)) ∧
    v.toNat = i.toNat % 2 ^ 29)

/-- R50, R51, R91: what a classic or a flexible-data-rate buffer says. -/
def Obligations.FrameBuffersAnswerTheirView : Prop :=
  (∀ (buf : List Byte) (s : State), buf.length = 16 →
    ((buf.getD 4 0).toNat ≤ 8 → exec (.frameClassic buf) s = .next (s.answer (.view
      { ident := BitVec.ofNat 32 (leNat (buf.take 4)), length := buf.getD 4 0,
        body := (buf.drop 8).take (buf.getD 4 0).toNat }))) ∧
    (8 < (buf.getD 4 0).toNat → exec (.frameClassic buf) s = .next (s.raise (.malformedFrame .badLength) none))) ∧
  (∀ (buf : List Byte) (s : State), buf.length = 72 →
    ((buf.getD 4 0).toNat ≤ 64 → exec (.frameFd buf) s = .next (s.answer (.view
      { ident := BitVec.ofNat 32 (leNat (buf.take 4)), length := buf.getD 4 0,
        body := (buf.drop 8).take (buf.getD 4 0).toNat }))) ∧
    (64 < (buf.getD 4 0).toNat → exec (.frameFd buf) s = .next (s.raise (.malformedFrame .badLength) none)))

/-- R80. -/
def Obligations.FrmSelChoosesTheShape : Prop :=
  ∀ (n : Nat) (s : State), s.constructed = true →
    (n ≤ 8 → exec (.frmSel n) s = .next (s.answer (.kind .classic))) ∧
    (8 < n ∧ n ≤ 64 ∧ s.cfg.fdEnabled = true → exec (.frmSel n) s = .next (s.answer (.kind .fd))) ∧
    (8 < n ∧ (64 < n ∨ s.cfg.fdEnabled = false) →
      exec (.frmSel n) s = .next (s.raise (.malformedMessage .payloadTooLong) none))

/-- R83, with the layouts of R50 and R51: the buffer byte by byte, and when there is none. -/
def Obligations.FrmBuildLaysOutTheFrame : Prop :=
  ∀ (m : Message) (s : State), m.wellFormed = true → s.constructed = true →
    let body := m.payload ++ m.tags.flatten
    (¬ TagsFit m → exec (.frmBuild m) s = .next (s.raise (.malformedMessage .badTags) none)) ∧
    (TagsFit m ∧ ¬ Fits s.cfg.fdEnabled body.length →
      exec (.frmBuild m) s = .next (s.raise (.malformedMessage .payloadTooLong) none)) ∧
    (TagsFit m ∧ Fits s.cfg.fdEnabled body.length →
      exec (.frmBuild m) s = .next (s.answer (.buffer
        (leBytes 4 (aidNumber m.aid + 2 ^ 31) ++ [BitVec.ofNat 8 body.length, 0, 0, 0] ++ body ++
          List.replicate ((if body.length ≤ 8 then 8 else 64) - body.length) 0))))

/-- R86: every byte sequence gives a message or `MalformedFrame`; which one, and what the message holds. -/
def Obligations.FrmParseSplitsTheFrame : Prop :=
  ∀ (buf : List Byte) (s : State),
    let len := (buf.getD 4 0).toNat
    let v := leNat (buf.take 4) % 2 ^ 29
    let q := v / 2 ^ 18 % 4
    let sized := (buf.length = 16 ∨ buf.length = 72)
    let cap := if buf.length = 16 then 8 else 64
    (¬ sized → exec (.frmParse buf) s = .next (s.raise (.malformedFrame .badSize) none)) ∧
    (sized ∧ (cap < len ∨ len < q * params.tagLen) →
      exec (.frmParse buf) s = .next (s.raise (.malformedFrame .badLength) none)) ∧
    (sized ∧ len ≤ cap ∧ q * params.tagLen ≤ len → ∃ (t : State) (m : Message),
      exec (.frmParse buf) s = .next t ∧ t.response = some (.message m) ∧ t.block = s.block ∧
      m.accepted = false ∧
      m.aid.priority.toNat = v / 2 ^ 26 ∧ m.aid.source.toNat = v / 2 ^ 20 % 64 ∧
      m.aid.dests.map BitVec.toNat = [v / 2 ^ 12 % 64, v / 2 ^ 6 % 64, v % 64].take q ∧
      m.payload = (buf.drop 8).take (len - q * params.tagLen) ∧
      m.tags = (List.range q).map fun i =>
        (buf.drop (8 + (len - q * params.tagLen) + i * params.tagLen)).take params.tagLen)

/-- R88: parsing what was built gives the message back, but for timestamp and flag. -/
def Obligations.FrmParseUndoesFrmBuild : Prop :=
  ∀ (m : Message) (s s' : State) (buf : List Byte), s.constructed = true →
    exec (.frmBuild m) s = .next (s.answer (.buffer buf)) →
      ∃ (t : State) (m' : Message), exec (.frmParse buf) s' = .next t ∧ t.response = some (.message m') ∧
        m'.aid = m.aid ∧ m'.payload = m.payload ∧ m'.tags = m.tags ∧ m'.accepted = false

/-- R54: on parse the identifier bits 31:29, the unused destination slots, bytes 5 to 7 and the data bytes at and
beyond the length do not influence the result. -/
def Obligations.FrmParseIgnoresReservedBits : Prop :=
  ∀ (b c : List Byte) (s : State), b.length = c.length → b.getD 4 0 = c.getD 4 0 →
    (b.drop 8).take (b.getD 4 0).toNat = (c.drop 8).take (b.getD 4 0).toNat →
    (let q := leNat (b.take 4) / 2 ^ 18 % 4
     leNat (b.take 4) % 2 ^ 29 / 2 ^ (18 - 6 * q) = leNat (c.take 4) % 2 ^ 29 / 2 ^ (18 - 6 * q)) →
    exec (.frmParse b) s = exec (.frmParse c) s

/-! ### Keys and tags -/

/-- R95. -/
def Obligations.KeyDeriveAsksTheProvider : Prop :=
  ∀ (a : Addr) (s : State), exec (.keyDerive a) s = .next (s.answer (.key (params.keyProv a)))

/-- R98: exactly the trailing `TAG_LEN` bytes of the keyed hash of the rendered payload. -/
def Obligations.MacTagIsTheDigestTail : Prop :=
  ∀ (key payload : List Byte) (s : State), ∃ front tag : List Byte,
    exec (.macTag key payload) s = .next (s.answer (.tag tag)) ∧ tag.length = params.tagLen ∧
    params.mac key (params.hex payload) = front ++ tag

/-- R100. -/
def Obligations.MacVerifyComparesWithTheTag : Prop :=
  ∀ (key payload tag : List Byte) (s s' : State), ∃ expected : List Byte,
    exec (.macTag key payload) s' = .next (s'.answer (.tag expected)) ∧
    exec (.macVerify key payload tag) s = .next (s.answer (.verdict (decide
      (tag.length = params.tagLen ∧ ∀ i, i < params.tagLen → tag[i]? = expected[i]?))))

/-- R102: a tag verifies with the key and payload it was made from. -/
def Obligations.TagVerifiesUnderItsOwnKey : Prop :=
  ∀ (key payload tag : List Byte) (s s' : State), exec (.macTag key payload) s = .next (s.answer (.tag tag)) →
    exec (.macVerify key payload tag) s' = .next (s'.answer (.verdict true))

/-- R97: two digits per byte, high nibble first, `0` to `9` as 30H to 39H and `a` to `f` as 61H to 66H. -/
def Obligations.HexWritesTwoDigitsPerByte : Prop :=
  ∀ (p : List Byte), (params.hex p).length = 2 * p.length ∧
    ∀ i b, p[i]? = some b →
      (params.hex p)[2 * i]? = some (BitVec.ofNat 8 (if b.toNat / 16 < 10 then 0x30 + b.toNat / 16 else 0x61 + (b.toNat / 16 - 10))) ∧
      (params.hex p)[2 * i + 1]? = some (BitVec.ofNat 8 (if b.toNat % 16 < 10 then 0x30 + b.toNat % 16 else 0x61 + (b.toNat % 16 - 10)))

/-! ### Replay tables -/

/-- R111. -/
def Obligations.RptEntryReadsTheTable : Prop :=
  ∀ (a src : Addr) (ds : List Addr) (s : State), s.constructed = true →
    (s.reg.lookup a = none → exec (.rptEntry a src ds) s = .next (s.raise .noSuchNode none)) ∧
    (∀ n, s.reg.lookup a = some n →
      exec (.rptEntry a src ds) s = .next (s.answer (.entry (n.rpt.lookup (channelKey src ds)))))

/-- R113: the counter, or 0 where there is no entry. -/
def Obligations.RptCurrentReadsZeroForAbsent : Prop :=
  ∀ (a src : Addr) (ds : List Addr) (s : State), s.constructed = true →
    (s.reg.lookup a = none → exec (.rptCurrent a src ds) s = .next (s.raise .noSuchNode none)) ∧
    (∀ n, s.reg.lookup a = some n → n.rpt.lookup (channelKey src ds) = none →
      exec (.rptCurrent a src ds) s = .next (s.answer (.counter 0))) ∧
    (∀ n c, s.reg.lookup a = some n → n.rpt.lookup (channelKey src ds) = some c →
      exec (.rptCurrent a src ds) s = .next (s.answer (.counter c)))

/-- R112, with its frame: one entry of one Node's table is written, unconditionally; no other entry, no other Node,
nothing else. -/
def Obligations.RptRecordWritesOneEntry : Prop :=
  ∀ (a src : Addr) (ds : List Addr) (c : Nat) (s : State), s.constructed = true →
    (s.reg.lookup a = none → exec (.rptRecord a src ds c) s = .next (s.raise .noSuchNode none)) ∧
    (∀ n, s.reg.lookup a = some n → ∃ (t : State) (n' : Node), exec (.rptRecord a src ds c) s = .next t ∧
      t.response = some .done ∧ t.request = none ∧ t.inputs = s.inputs ∧
      t.constructed = true ∧ t.cfg = s.cfg ∧ t.localAddr = s.localAddr ∧ t.th = s.th ∧
      t.reg.lookup a = some n' ∧ n'.address = n.address ∧ n'.key = n.key ∧
      n'.rpt.lookup (channelKey src ds) = some c ∧
      (∀ k, k ≠ channelKey src ds → n'.rpt.lookup k = n.rpt.lookup k) ∧
      (∀ b, b ≠ a → t.reg.lookup b = s.reg.lookup b))

/-- R114: what the two reads answer after a record, on its own channel and on every other channel and Node. -/
def Obligations.ReadsAfterARecord : Prop :=
  ∀ (a src b src' : Addr) (ds ds' : List Addr) (c : Nat) (s t : State), s.constructed = true →
    (s.reg.lookup a).isSome = true → exec (.rptRecord a src ds c) s = .next t →
    exec (.rptEntry a src ds) t = .next (t.answer (.entry (some c))) ∧
    exec (.rptCurrent a src ds) t = .next (t.answer (.counter c)) ∧
    (¬ (b = a ∧ channelKey src' ds' = channelKey src ds) → ∃ r r' : Response,
      exec (.rptEntry b src' ds') s = .next (s.answer r) ∧ exec (.rptEntry b src' ds') t = .next (t.answer r) ∧
      exec (.rptCurrent b src' ds') s = .next (s.answer r') ∧ exec (.rptCurrent b src' ds') t = .next (t.answer r'))

/-- R115: two channels are one exactly when source and SET of destinations agree. -/
def Obligations.ChannelIsSourceAndSet : Prop :=
  ∀ (src src' : Addr) (ds ds' : List Addr),
    channelKey src ds = channelKey src' ds' ↔ src = src' ∧ ∀ d, d ∈ ds ↔ d ∈ ds'

/-! ### Verification -/

/-- R121: which message is accepted, why the others are not, and what is stored; authentication comes first. -/
def Obligations.NodeVerifyDecides : Prop :=
  ∀ (a : Addr) (m : Message) (s : State), s.constructed = true →
    let k := channelKey m.aid.source m.aid.dests
    let kept := fun cause =>
      exec (.nodeVerify a m) s = .next (s.answer (.verified { m with accepted := false } cause))
    (s.reg.lookup a = none → exec (.nodeVerify a m) s = .next (s.raise .noSuchNode none)) ∧
    (∀ n, s.reg.lookup a = some n → ¬ CarriesTag a n.key m → kept .authFailure) ∧
    (∀ n, s.reg.lookup a = some n → CarriesTag a n.key m → m.payload = [] → kept .noCounter) ∧
    (∀ n c rest, s.reg.lookup a = some n → CarriesTag a n.key m → m.payload = c :: rest →
      c.toNat < (n.rpt.lookup k).getD 0 → kept .replay) ∧
    (∀ n c rest, s.reg.lookup a = some n → CarriesTag a n.key m → m.payload = c :: rest →
      (n.rpt.lookup k).getD 0 ≤ c.toNat →
      ∃ (t : State) (n' : Node), exec (.nodeVerify a m) s = .next t ∧
        t.response = some (.verified { m with accepted := true } .accepted) ∧ t.request = none ∧
        t.inputs = s.inputs ∧ t.constructed = true ∧ t.cfg = s.cfg ∧ t.localAddr = s.localAddr ∧ t.th = s.th ∧
        t.reg.lookup a = some n' ∧ n'.address = n.address ∧ n'.key = n.key ∧ n'.rpt.lookup k = some c.toNat ∧
        (∀ k', k' ≠ k → n'.rpt.lookup k' = n.rpt.lookup k') ∧ (∀ b, b ≠ a → t.reg.lookup b = s.reg.lookup b))

/-- R110, R121, R158: a command that names a Node that does not exist is refused and changes nothing. -/
def Obligations.AbsentNodeIsRefused : Prop :=
  ∀ (a src : Addr) (ds : List Addr) (c : Nat) (m : Message) (s : State), s.constructed = true →
    s.reg.lookup a = none →
    exec (.rptEntry a src ds) s = .next (s.raise .noSuchNode none) ∧
    exec (.rptRecord a src ds c) s = .next (s.raise .noSuchNode none) ∧
    exec (.rptCurrent a src ds) s = .next (s.raise .noSuchNode none) ∧
    exec (.nodeVerify a m) s = .next (s.raise .noSuchNode none)

/-- R125: a Node that is not a destination, a message without destinations included, never accepts. -/
def Obligations.NonDestinationFailsAuthentication : Prop :=
  ∀ (a : Addr) (m : Message) (s : State), s.constructed = true → (s.reg.lookup a).isSome = true →
    a ∉ m.aid.dests →
    exec (.nodeVerify a m) s = .next (s.answer (.verified { m with accepted := false } .authFailure))

/-- R123: a channel that has accepted 255 accepts nothing else. -/
def Obligations.CounterDoesNotWrap : Prop :=
  ∀ (a : Addr) (m m' : Message) (s t : State) (n : Node), s.constructed = true →
    s.reg.lookup a = some n → n.rpt.lookup (channelKey m.aid.source m.aid.dests) = some 255 →
    exec (.nodeVerify a m) s = .next t → t.response = some (.verified m' .accepted) →
    ∃ rest, m.payload = 255#8 :: rest

/-! ### The link -/

/-- R132. -/
def Obligations.LinkClaimIsTheLeastFree : Prop :=
  ∀ (claimed : List Nat) (s : State), ∃ n : Nat, exec (.linkClaim claimed) s = .next (s.answer (.address n)) ∧
    n ∉ claimed ∧ ∀ k, k < n → k ∈ claimed

/-- R130, R131, R133: the state a construction leaves, whole, and when it raises instead, by the transport's answer
`o.1`. The first two clauses, on where that answer comes from, are the model's choice: the first one listed, used up
(log entries 6, 18), or a free value and one more draw where none is (log entry 6). -/
def Obligations.LinkConstructBuildsTheLink : Prop :=
  ∀ (cfg : LinkCfg) (s : State),
    let q := obtainRequest cfg
    let o := s.obtain q
    (∀ ans rest, s.openIn = ans :: rest → o = (ans, { s with openIn := rest })) ∧
    (s.openIn = [] → o = (Config.openAnswer q s.draws, { s with draws := s.draws + 1 })) ∧
    (s.constructed = true → exec (.linkConstruct cfg) s = .next (s.raise .alreadyConstructed none)) ∧
    (s.constructed = false ∧ (∀ a, a < 64 → cfg.claimed.getLsbD a = true) →
      exec (.linkConstruct cfg) s = .next (s.raise .addressSpaceExhausted none)) ∧
    (∀ a, s.constructed = false → a < 64 → cfg.claimed.getLsbD a = false →
      (∀ b, b < a → cfg.claimed.getLsbD b = true) →
      (∀ th, o.1 = .handle th → exec (.linkConstruct cfg) s = .next
        { o.2 with
          constructed := true, cfg := cfg, localAddr := BitVec.ofNat 6 a, th := th,
          reg := [(BitVec.ofNat 6 a,
            { address := BitVec.ofNat 6 a, key := params.keyProv (BitVec.ofNat 6 a), rpt := [] })],
          response := some .ok, request := some (.obtain cfg.channel cfg.receiveOwn cfg.fdEnabled) }) ∧
      (o.1 = .failure → exec (.linkConstruct cfg) s = .next
        (o.2.raise .transportFailure (some (.obtain cfg.channel cfg.receiveOwn cfg.fdEnabled)))))

/-- R134: the checks in their order, and the message. -/
def Obligations.MsgNewChecksAndConstructs : Prop :=
  ∀ (ts : Timestamp) (p src : Nat) (ds payload : List Nat) (s : State),
    let bytes := ∀ b ∈ payload, b ≤ 255
    let cap := if s.cfg.fdEnabled then 64 else 8
    let i := Instr.msgNew ts p src ds payload
    (s.constructed = false → exec i s = .next (s.raise .notConstructed none)) ∧
    (s.constructed = true ∧ ¬ InRange p src ds →
      exec i s = .next (s.raise (.malformedMessage .badArbitrationId) none)) ∧
    (s.constructed = true ∧ InRange p src ds ∧ ¬ bytes →
      exec i s = .next (s.raise (.malformedMessage .byteOutOfRange) none)) ∧
    (s.constructed = true ∧ InRange p src ds ∧ bytes ∧ cap < payload.length + ds.length * params.tagLen →
      exec i s = .next (s.raise (.malformedMessage .payloadTooLong) none)) ∧
    (s.constructed = true ∧ InRange p src ds ∧ bytes ∧ payload.length + ds.length * params.tagLen ≤ cap →
      ∃ m : Message, exec i s = .next (s.answer (.message m)) ∧ m.timestamp = ts ∧
        m.aid.priority.toNat = p ∧ m.aid.source.toNat = src ∧ m.aid.dests.map BitVec.toNat = ds ∧
        m.payload.map BitVec.toNat = payload ∧ m.tags = [] ∧ m.accepted = false)

/-- R135: an absent Node is created with its derived key and an empty table; a present one is returned untouched. -/
def Obligations.LinkResolveInsertsOnFirstSight : Prop :=
  ∀ (d : Addr) (s : State),
    (s.constructed = false → exec (.linkResolve d) s = .next (s.raise .notConstructed none)) ∧
    (∀ n, s.constructed = true → s.reg.lookup d = some n → exec (.linkResolve d) s = .next (s.answer (.node n))) ∧
    (s.constructed = true → s.reg.lookup d = none → ∃ t : State, exec (.linkResolve d) s = .next t ∧
      t.response = some (.node { address := d, key := params.keyProv d, rpt := [] }) ∧ t.request = none ∧
      t.inputs = s.inputs ∧ t.constructed = true ∧ t.cfg = s.cfg ∧ t.localAddr = s.localAddr ∧ t.th = s.th ∧
      t.reg.lookup d = some { address := d, key := params.keyProv d, rpt := [] } ∧
      (∀ b, b ≠ d → t.reg.lookup b = s.reg.lookup b))

/-- R138, R161: when a send raises, in the order of the checks. -/
def Obligations.LinkSendRaises : Prop :=
  ∀ (m : Message) (s : State), s.constructed = true →
    (m.tags ≠ [] → exec (.linkSend m) s = .next (s.raise (.malformedMessage .badTags) none)) ∧
    (m.tags = [] ∧ ¬ Fits s.cfg.fdEnabled (m.payload.length + m.aid.dests.length * params.tagLen) →
      exec (.linkSend m) s = .next (s.raise (.malformedMessage .payloadTooLong) none))

/-- R138, R139, with its frame: the message as transmitted, the buffer written, the Nodes created, the two results by
the transport's answer to the write: the first one listed, or a free value where none is (log entry 6). Node keys are
those before the send or, for an address first seen, the derived key. -/
def Obligations.LinkSendTagsBuildsAndWrites : Prop :=
  ∀ (m : Message) (s : State), m.wellFormed = true → s.constructed = true → m.tags = [] →
    Fits s.cfg.fdEnabled (m.payload.length + m.aid.dests.length * params.tagLen) →
    let fresh := fun d => ({ address := d, key := params.keyProv d, rpt := [] } : Node)
    let m' := { m with
      aid := { m.aid with source := s.localAddr },
      tags := m.aid.dests.map fun d => macTag params ((s.reg.lookup d).getD (fresh d)).key m.payload }
    ∃ (t : State) (buf : List Byte), exec (.linkSend m) s = .next t ∧
      exec (.frmBuild m') s = .next (s.answer (.buffer buf)) ∧
      (let q := TransportRequest.write s.th buf
       let w := s.txWrite q
       (∀ ans rest, s.writeIn = ans :: rest → w = (ans, { s with writeIn := rest })) ∧
       (s.writeIn = [] → w = (Config.writeAnswer q s.draws, { s with draws := s.draws + 1 })) ∧
       t.request = some q ∧
       t.response = some (match w.1 with | .written n => .sent m' n | .failure => .transportFailure) ∧
       t.inputs = w.2.inputs) ∧
      t.constructed = true ∧ t.cfg = s.cfg ∧ t.localAddr = s.localAddr ∧ t.th = s.th ∧
      (∀ d, d ∈ m.aid.dests → t.reg.lookup d = some ((s.reg.lookup d).getD (fresh d))) ∧
      (∀ d, d ∉ m.aid.dests → t.reg.lookup d = s.reg.lookup d)

/-- R140, R142: by the transport's answer `r.1` (the first one listed, or a free value where none is, log entry 6): no
frame, a failure, or a frame that cannot be parsed. No block state is written, the answer is used up. -/
def Obligations.LinkRecvWithoutAMessage : Prop :=
  ∀ (tm : Timeout) (s : State), s.constructed = true →
    let q := TransportRequest.read s.th tm
    let r := s.rxRead q
    (∀ ans rest, s.readIn = ans :: rest → r = (ans, { s with readIn := rest })) ∧
    (s.readIn = [] → r = (Config.readAnswer q s.draws, { s with draws := s.draws + 1 })) ∧
    (r.1 = .none → exec (.linkRecv tm) s = .next (r.2.respond .noMessage (some q))) ∧
    (r.1 = .failure → exec (.linkRecv tm) s = .next (r.2.respond .transportFailure (some q))) ∧
    (∀ buf, r.1 = .frame buf → buf.length ≠ 16 ∧ buf.length ≠ 72 →
      exec (.linkRecv tm) s = .next (r.2.raise (.malformedFrame .badSize) (some q))) ∧
    (∀ buf, r.1 = .frame buf → (buf.length = 16 ∨ buf.length = 72) → ¬ Parses buf →
      exec (.linkRecv tm) s = .next (r.2.raise (.malformedFrame .badLength) (some q)))

/-- R140, R141: a frame of a right size, with a length byte the shape holds and the tags fit: the message it holds is
delivered. The source and every destination are resolved, then the LOCAL Node verifies, and its verdict is the answer.
The premise that the local Node is present is R28 (i). -/
def Obligations.LinkRecvResolvesThenVerifies : Prop :=
  ∀ (tm : Timeout) (s : State) (buf : List Byte), s.constructed = true →
    (s.reg.lookup s.localAddr).isSome = true → (s.rxRead (.read s.th tm)).1 = .frame buf → Parses buf →
    ∃ (m m' : Message) (cause : Cause) (r u : State),
      HoldsMessage buf m ∧
      r.constructed = true ∧ r.cfg = s.cfg ∧ r.localAddr = s.localAddr ∧ r.th = s.th ∧
      r.inputs = (s.rxRead (.read s.th tm)).2.drawn.inputs ∧
      (∀ b, b = m.aid.source ∨ b ∈ m.aid.dests → r.reg.lookup b =
        some ((s.reg.lookup b).getD { address := b, key := params.keyProv b, rpt := [] })) ∧
      (∀ b, ¬ (b = m.aid.source ∨ b ∈ m.aid.dests) → r.reg.lookup b = s.reg.lookup b) ∧
      exec (.nodeVerify s.localAddr m) r = .next u ∧ u.response = some (.verified m' cause) ∧
      exec (.linkRecv tm) s = .next (u.respond (.received m' cause) (some (.read s.th tm)))

/-- R18, R140: what a receive leaves. Unless it delivers a message the registry is as it was; when it delivers `m`,
only `m`'s source and destinations can have been created, fresh, and of the entries of all present Nodes only the
local Node's entry for `m`'s channel can differ, and that only when `m` was accepted. -/
def Obligations.LinkRecvFrame : Prop :=
  ∀ (tm : Timeout) (s t : State), exec (.linkRecv tm) s = .next t →
    t.constructed = s.constructed ∧ t.cfg = s.cfg ∧ t.localAddr = s.localAddr ∧ t.th = s.th ∧ t.port = s.port ∧
    t.openIn = s.openIn ∧ t.writeIn = s.writeIn ∧
    (∀ b, b ≠ s.localAddr → t.reg.lookup b = s.reg.lookup b ∨
      (s.reg.lookup b = none ∧ t.reg.lookup b = some { address := b, key := params.keyProv b, rpt := [] })) ∧
    (∀ n, s.reg.lookup s.localAddr = some n →
      ∃ n', t.reg.lookup s.localAddr = some n' ∧ n'.address = n.address ∧ n'.key = n.key) ∧
    ((∀ m c, t.response ≠ some (.received m c)) → t.reg = s.reg) ∧
    (∀ m c, t.response = some (.received m c) →
      (∀ b, b ≠ m.aid.source → b ∉ m.aid.dests → s.reg.lookup b = none → t.reg.lookup b = none) ∧
      (∀ k, k ≠ channelKey m.aid.source m.aid.dests ∨ c ≠ .accepted →
        (t.reg.lookup s.localAddr).bind (fun n => n.rpt.lookup k) =
          (s.reg.lookup s.localAddr).bind (fun n => n.rpt.lookup k)))

/-- R144: what one endpoint sends, another built with the same parameters receives: source, destinations and payload
arrive; exactly a destination authenticates it; it is accepted exactly by a destination for which its counter is
fresh. -/
def Obligations.SentMessageIsReceived : Prop :=
  ∀ (m m' : Message) (a b t : State) (nbytes : Nat) (buf : List Byte) (th : Handle) (rest : List ReadAnswer)
    (tm : Timeout) (n : Node),
    a.Inv → exec (.linkSend m) a = .next t → t.response = some (.sent m' nbytes) →
    t.request = some (.write th buf) →
    b.constructed = true → b.Inv → b.reg.lookup b.localAddr = some n → b.readIn = .frame buf :: rest →
    ∃ (u : State) (r : Message) (cause : Cause), exec (.linkRecv tm) b = .next u ∧
      u.response = some (.received r cause) ∧
      r.aid.priority = m.aid.priority ∧ r.aid.source = a.localAddr ∧ r.aid.dests = m.aid.dests ∧
      r.payload = m.payload ∧
      (cause = .authFailure ↔ b.localAddr ∉ m.aid.dests) ∧
      (r.accepted = true ↔ b.localAddr ∈ m.aid.dests ∧ ∃ c tail, m.payload = c :: tail ∧
        (n.rpt.lookup (channelKey a.localAddr m.aid.dests)).getD 0 ≤ c.toNat)

/-! ### The whole machine -/

/-- R13, R158, R173: before construction every command but `LINK.CONSTRUCT` and the pure ones is refused. -/
def Obligations.StateCommandsNeedConstruction : Prop :=
  ∀ (i : Instr) (s : State), s.constructed = false → isPure i = false → (∀ cfg, i ≠ .linkConstruct cfg) →
    exec i s = .next (s.raise .notConstructed none)

/-- R13, R56: the pure operations read and write no state; those that read state and write none keep it as well. The
command port and the transport's answers stay too. -/
def Obligations.ReadersKeepTheState : Prop :=
  ∀ (i : Instr) (s t : State), isPure i = true ∨ isReader i = true → exec i s = .next t →
    t.block = s.block ∧ t.request = none ∧ t.port = s.port ∧ t.openIn = s.openIn ∧ t.writeIn = s.writeIn ∧
    t.readIn = s.readIn

/-- R13: what a pure operation answers does not depend on the block's state (a parsed message's timestamp is a
draw, R87). -/
def Obligations.PureAnswersIgnoreTheState : Prop :=
  ∀ (i : Instr) (s s' t t' : State), isPure i = true → s.draws = s'.draws → exec i s = .next t →
    exec i s' = .next t' → t.response = t'.response

/-- R154: a command that raises an error or is refused writes no state of the block; what a receive that rejects a
frame has used up is the frame. -/
def Obligations.ErrorsWriteNoState : Prop :=
  (∀ (i : Instr) (s t : State) (e : Err), exec i s = .next t → t.response = some (.error e) → t.block = s.block) ∧
  (∀ (tm : Timeout) (s t : State) (c : FrameCause) (r : ReadAnswer) (rest : List ReadAnswer),
    exec (.linkRecv tm) s = .next t → t.response = some (.error (.malformedFrame c)) → s.readIn = r :: rest →
      t.block = s.block ∧ t.readIn = rest)

/-- R14, R15, R21, R170: once constructed, the configuration, the local address and the handle never change. -/
def Obligations.ConstructionIsFinal : Prop :=
  ∀ s t : State, s.constructed = true → step s = .next t →
    t.constructed = true ∧ t.cfg = s.cfg ∧ t.localAddr = s.localAddr ∧ t.th = s.th

/-- R28 (i), (ii), with the canonical form of the keyed storage (log entry 12) and the empty registry before
construction (log entry 8): every step keeps the invariant. -/
def Obligations.StepKeepsTheInvariant : Prop :=
  ∀ s t : State, s.Inv → step s = .next t → t.Inv

/-- The invariant holds at reset (R29; log entry 8). -/
def Obligations.ResetMeetsTheInvariant : Prop := State.reset.Inv

/-- R29: before construction. -/
def Obligations.ResetIsNotConstructed : Prop :=
  State.reset.constructed = false ∧ State.reset.reg = [] ∧ State.reset.port = []

/-- R28 (iii), R16, R17: once constructed, Nodes are only added; their address and key stay. -/
def Obligations.NodesAreOnlyAdded : Prop :=
  ∀ (s t : State) (a : Addr) (n : Node), s.constructed = true → step s = .next t → s.reg.lookup a = some n →
    ∃ n', t.reg.lookup a = some n' ∧ n'.address = n.address ∧ n'.key = n.key

/-- R28 (iv), R116, R124: but for a direct `RPT.RECORD`, no command lowers a counter or drops an entry. -/
def Obligations.CountersNeverDecrease : Prop :=
  ∀ (i : Instr) (s t : State) (a : Addr) (n : Node) (k : ChannelKey) (c : Nat), s.constructed = true →
    isRecord i = false → exec i s = .next t → s.reg.lookup a = some n → n.rpt.lookup k = some c →
    ∃ n' c', t.reg.lookup a = some n' ∧ n'.rpt.lookup k = some c' ∧ c ≤ c'

/-- R18: entries are added or overwritten only by `RPT.RECORD`, by `NODE.VERIFY` on the Node it names and by
`LINK.RECV` on the local Node: every other command leaves every table as it is. -/
def Obligations.OnlyThreeCommandsWriteTables : Prop :=
  ∀ (i : Instr) (s t : State) (a : Addr) (n : Node), s.constructed = true → exec i s = .next t →
    isRecord i = false → (∀ b m, i = .nodeVerify b m → b ≠ a) → (∀ tm, i = .linkRecv tm → s.localAddr ≠ a) →
    s.reg.lookup a = some n → t.reg.lookup a = some n

/-- R151: the codes of the outcomes, the numbers of the sub-causes 1.1 to 1.4, 0 for every other normal end, and no
answer with the code 5 that is never reported (R156). -/
def Obligations.OutcomeCodes : Prop :=
  (∀ (m : Message) (c : MessageCause) (f : FrameCause),
    (Response.error (.malformedMessage c)).code = 1 ∧ (Response.error .transportFailure).code = 4 ∧
    Response.transportFailure.code = 4 ∧ (Response.error (.malformedFrame f)).code = 6 ∧
    (Response.error .notConstructed).code = 7 ∧ (Response.error .alreadyConstructed).code = 8 ∧
    (Response.error .addressSpaceExhausted).code = 9 ∧ (Response.error .noSuchNode).code = 10 ∧
    Response.noMessage.code = 12 ∧
    ∀ r, r = Response.verified m ∨ r = Response.received m → (r .accepted).code = 0 ∧ (r .authFailure).code = 2 ∧
      (r .replay).code = 3 ∧ (r .noCounter).code = 11) ∧
  (MessageCause.badArbitrationId.subCode = 1 ∧ MessageCause.byteOutOfRange.subCode = 2 ∧
    MessageCause.payloadTooLong.subCode = 3 ∧ MessageCause.badTags.subCode = 4) ∧
  (∀ r : Response, (∀ e, r ≠ .error e) → (∀ m c, r ≠ .verified m c) → (∀ m c, r ≠ .received m c) →
    r ≠ .transportFailure → r ≠ .noMessage → r.code = 0) ∧
  (∀ r : Response, r.code ≠ 5)

/-! ### The parameters -/

/-- R27, R35, R97, R122: `exec` and `step` are the parametric relation at one record of parameters, whose last three
have the values the spec decides. -/
def Obligations.StepTakesTheParameters : Prop :=
  (∀ (i : Instr) (s : State), exec i s = execWith params i s) ∧ (∀ s : State, step s = stepWith params s) ∧
  params.idByteOrder = .little ∧ params.ctrIndex = 0 ∧ params.hex = hexLower

/-- R27, R122, R144 for ANY parameters: whatever `TAG_LEN`, `MAC`, `KEYPROV`, `HEX`, `CTR_INDEX` and `ID_BYTE_ORDER`
are, what one instance sends, another with the same parameters receives: source, destinations and payload arrive, it
fails authentication exactly when the receiver is no destination, and it is accepted exactly when the receiver is one
and the payload has a byte at `CTR_INDEX` that is fresh. -/
def Obligations.AnySharedParametersDeliver : Prop :=
  ∀ (P : Params) (m m' : Message) (a b t : State) (nbytes : Nat) (buf : List Byte) (th : Handle) (tm : Timeout)
    (n : Node),
    KeysFrom P a.reg → execWith P (.linkSend m) a = .next t → t.response = some (.sent m' nbytes) →
    t.request = some (.write th buf) →
    b.constructed = true → KeysFrom P b.reg → b.reg.lookup b.localAddr = some n →
    (b.rxRead (.read b.th tm)).1 = .frame buf →
    ∃ (u : State) (r : Message) (cause : Cause), execWith P (.linkRecv tm) b = .next u ∧
      u.response = some (.received r cause) ∧
      r.aid.priority = m.aid.priority ∧ r.aid.source = a.localAddr ∧ r.aid.dests = m.aid.dests ∧
      r.payload = m.payload ∧
      (cause = .authFailure ↔ b.localAddr ∉ m.aid.dests) ∧
      (r.accepted = true ↔ b.localAddr ∈ m.aid.dests ∧ ∃ c, m.payload[P.ctrIndex]? = some c ∧
        (n.rpt.lookup (channelKey a.localAddr m.aid.dests)).getD 0 ≤ c.toNat)
end

