-- ==== Sys2Proof/Laws/Codec.lean ====
section
/-!
SUPPORT. Reading back what was written, for each operand form of the command port, and the bytes of a number.
-/

namespace Sys2Proof

@[simp] theorem andThen_ok {α β : Type} (a : α) (rest : List Byte) (f : α → List Byte → Except DecodeError β) :
    andThen (.ok (a, rest)) f = f a rest := rfl

/-- Going on succeeds only from a success. -/
theorem andThen_eq_ok {α β : Type} {r : ReadResult α} {f : α → List Byte → Except DecodeError β} {b : β}
    (h : andThen r f = .ok b) : ∃ a rest, r = .ok (a, rest) ∧ f a rest = .ok b := by
  cases r with
  | error e => cases h
  | ok p => exact ⟨p.1, p.2, rfl, h⟩

theorem readNat_writeNatFuel (fuel n : Nat) (h : n ≤ fuel) (rest : List Byte) :
    readNat (writeNatFuel fuel n ++ rest) = .ok (n, rest) := by
  induction fuel generalizing n with
  | zero =>
    have : n = 0 := by omega
    subst this
    simp [writeNatFuel, readNat]
  | succ fuel ih =>
    by_cases hn : n < 128
    · have h8 : n % 256 = n := by omega
      simp [writeNatFuel, readNat, hn, h8]
    · have h8 : (n % 128 + 128) % 256 = n % 128 + 128 := by omega
      have hge : ¬ (n % 128 + 128 < 128) := by omega
      have hne : n / 128 ≠ 0 := by omega
      simp only [writeNatFuel, hn, if_false, List.cons_append, readNat, BitVec.toNat_ofNat, Nat.reducePow, h8, hge,
        ih (n / 128) (by omega), andThen_ok, hne]
      congr 2
      omega

@[simp] theorem readNat_writeNat (n : Nat) (rest : List Byte) : readNat (writeNat n ++ rest) = .ok (n, rest) :=
  readNat_writeNatFuel n n le_rfl rest

@[simp] theorem readWord_writeWord {w : Nat} (v : BitVec w) (rest : List Byte) :
    readWord w (writeWord v ++ rest) = .ok (v, rest) := by
  simp [readWord, writeWord, v.isLt]

@[simp] theorem readBool_writeBool (b : Bool) (rest : List Byte) : readBool (writeBool b ++ rest) = .ok (b, rest) := by
  cases b <;> simp [readBool, writeBool, readWord]

theorem readMany_written {α : Type} {rd : List Byte → ReadResult α} {wr : α → List Byte}
    (h : ∀ a rest, rd (wr a ++ rest) = .ok (a, rest)) (as : List α) (rest : List Byte) :
    readMany rd as.length ((as.map wr).flatten ++ rest) = .ok (as, rest) := by
  induction as with
  | nil => rfl
  | cons a as ih => simp [readMany, List.append_assoc, h, ih]

theorem readList_writeList {α : Type} {rd : List Byte → ReadResult α} {wr : α → List Byte}
    (h : ∀ a rest, rd (wr a ++ rest) = .ok (a, rest)) (as : List α) (rest : List Byte) :
    readList rd (writeList wr as ++ rest) = .ok (as, rest) := by
  simp [readList, writeList, List.append_assoc, readMany_written h]

@[simp] theorem readList_naturals (as : List Nat) (rest : List Byte) :
    readList readNat (writeList writeNat as ++ rest) = .ok (as, rest) := readList_writeList readNat_writeNat as rest

@[simp] theorem readList_words {w : Nat} (as : List (BitVec w)) (rest : List Byte) :
    readList (readWord w) (writeList writeWord as ++ rest) = .ok (as, rest) :=
  readList_writeList readWord_writeWord as rest

@[simp] theorem readBytes_writeBytes (bs rest : List Byte) : readBytes (writeBytes bs ++ rest) = .ok (bs, rest) :=
  readList_writeList (fun _ _ => rfl) bs rest

@[simp] theorem readList_byteLists (ts : List (List Byte)) (rest : List Byte) :
    readList readBytes (writeList writeBytes ts ++ rest) = .ok (ts, rest) :=
  readList_writeList readBytes_writeBytes ts rest

@[simp] theorem readAid_writeAid (aid : ArbId) (rest : List Byte) :
    readAid (writeAid aid ++ rest) = .ok (aid, rest) := by
  simp [readAid, writeAid, List.append_assoc]

@[simp] theorem readMessage_writeMessage (m : Message) (rest : List Byte) :
    readMessage (writeMessage m ++ rest) = .ok (m, rest) := by
  simp [readMessage, writeMessage, List.append_assoc]

@[simp] theorem readCfg_writeCfg (cfg : LinkCfg) (rest : List Byte) :
    readCfg (writeCfg cfg ++ rest) = .ok (cfg, rest) := by
  simp [readCfg, writeCfg, List.append_assoc]

@[simp] theorem length_leBytes (k n : Nat) : (leBytes k n).length = k := by
  induction k generalizing n with
  | zero => rfl
  | succ k ih => simp [leBytes, ih]

theorem leNat_leBytes (k n : Nat) : leNat (leBytes k n) = n % 256 ^ k := by
  induction k generalizing n with
  | zero => simp [leBytes, leNat, Nat.mod_one]
  | succ k ih =>
    simp only [leBytes, leNat, ih, BitVec.toNat_ofNat, Nat.reducePow]
    rw [pow_succ', Nat.mod_mul]

end Sys2Proof
end

