-- ==== Sys2Proof/Laws/Canonical.lean ====
section
/-!
SUPPORT. What each reader of an operand accepts: only what the matching writer writes. So no other bytes name the
same operand.
-/

namespace Sys2Proof

theorem writeNatFuel_congr (f g n : Nat) (hf : n ≤ f) (hg : n ≤ g) : writeNatFuel f n = writeNatFuel g n := by
  induction f generalizing g n with
  | zero =>
    obtain rfl : n = 0 := by omega
    cases g <;> simp [writeNatFuel]
  | succ f ih =>
    cases g with
    | zero =>
      obtain rfl : n = 0 := by omega
      simp [writeNatFuel]
    | succ g =>
      simp only [writeNatFuel]
      split
      · rfl
      · rw [ih g (n / 128) (by omega) (by omega)]

/-- A reader that accepts only what the writer writes. -/
def ReadsBack {α : Type} (rd : List Byte → ReadResult α) (wr : α → List Byte) : Prop :=
  ∀ bs a r, rd bs = .ok (a, r) → bs = wr a ++ r

theorem readsBack_nat : ReadsBack readNat writeNat := by
  intro bs
  induction bs with
  | nil => intro a r h; cases h
  | cons b bs ih =>
    intro n r h
    unfold readNat at h
    split at h
    · rename_i hlt
      cases h
      suffices writeNat b.toNat = [b] by rw [this]; rfl
      cases hb : b.toNat with
      | zero => exact congrArg (· :: []) (BitVec.eq_of_toNat_eq (by simp [hb]))
      | succ k =>
        rw [← hb, writeNat, writeNatFuel_congr _ (k + 1) _ le_rfl (by omega)]
        simp [writeNatFuel, hlt]
    · obtain ⟨m, r', h1, h2⟩ := andThen_eq_ok h
      split at h2
      · cases h2
      · have hb := b.isLt
        cases h2
        rw [ih m _ h1]
        obtain ⟨k, hk⟩ : ∃ k, b.toNat - 128 + 128 * m = k + 1 := ⟨b.toNat - 128 + 128 * m - 1, by omega⟩
        have e1 : (b.toNat - 128 + 128 * m) / 128 = m := by omega
        have e2 : (b.toNat - 128 + 128 * m) % 128 + 128 = b.toNat := by omega
        rw [writeNat, writeNat, writeNatFuel_congr (b.toNat - 128 + 128 * m) (k + 1) _ le_rfl (by omega)]
        simp only [writeNatFuel, if_neg (show ¬ (b.toNat - 128 + 128 * m < 128) by omega), e1, e2,
          writeNatFuel_congr k m m (by omega) le_rfl]
        simp

theorem readsBack_word (w : Nat) : ReadsBack (readWord w) writeWord := by
  intro bs a r h
  obtain ⟨n, r', h1, h2⟩ := andThen_eq_ok h
  split at h2
  · cases h2
    rename_i hn
    simpa [writeWord, Nat.mod_eq_of_lt hn] using readsBack_nat _ _ _ h1
  · cases h2

theorem readsBack_bool : ReadsBack readBool writeBool := by
  intro bs a r h
  obtain ⟨n, r', h1, h2⟩ := andThen_eq_ok h
  cases h2
  rw [readsBack_word _ _ _ _ h1]
  have key : ∀ n : BitVec 1, writeWord n = writeBool (n == 1#1) := by decide
  exact congrArg (· ++ _) (key n)

theorem readsBack_many {α : Type} {rd : List Byte → ReadResult α} {wr : α → List Byte} (h : ReadsBack rd wr) :
    ∀ k bs as r, readMany rd k bs = .ok (as, r) → as.length = k ∧ bs = (as.map wr).flatten ++ r := by
  intro k
  induction k with
  | zero => intro bs as r hh; cases hh; simp
  | succ k ih =>
    intro bs as r hh
    obtain ⟨a, r1, h1, h2⟩ := andThen_eq_ok hh
    obtain ⟨as', r2, h3, h4⟩ := andThen_eq_ok h2
    cases h4
    obtain ⟨e1, e2⟩ := ih _ _ _ h3
    exact ⟨by simp [e1], by rw [h _ _ _ h1, e2]; simp⟩

theorem readsBack_list {α : Type} {rd : List Byte → ReadResult α} {wr : α → List Byte} (h : ReadsBack rd wr) :
    ReadsBack (readList rd) (writeList wr) := by
  intro bs as r hh
  obtain ⟨k, r1, h1, h2⟩ := andThen_eq_ok hh
  obtain ⟨e1, e2⟩ := readsBack_many h _ _ _ _ h2
  rw [readsBack_nat _ _ _ h1, e2, writeList, e1, List.append_assoc]

theorem readsBack_bytes : ReadsBack readBytes writeBytes := by
  refine readsBack_list fun bs a r h => ?_
  cases bs with
  | nil => cases h
  | cons b bs => cases h; rfl

theorem readsBack_aid : ReadsBack readAid writeAid := by
  intro bs as r hh
  obtain ⟨_, _, h1, hh⟩ := andThen_eq_ok hh
  obtain ⟨_, _, h2, hh⟩ := andThen_eq_ok hh
  obtain ⟨_, _, h3, hh⟩ := andThen_eq_ok hh
  cases hh
  rw [readsBack_word _ _ _ _ h1, readsBack_word _ _ _ _ h2, readsBack_list (readsBack_word 6) _ _ _ h3]
  simp [writeAid]

theorem readsBack_message : ReadsBack readMessage writeMessage := by
  intro bs as r hh
  obtain ⟨_, _, h1, hh⟩ := andThen_eq_ok hh
  obtain ⟨_, _, h2, hh⟩ := andThen_eq_ok hh
  obtain ⟨_, _, h3, hh⟩ := andThen_eq_ok hh
  obtain ⟨_, _, h4, hh⟩ := andThen_eq_ok hh
  obtain ⟨_, _, h5, hh⟩ := andThen_eq_ok hh
  cases hh
  rw [readsBack_nat _ _ _ h1, readsBack_aid _ _ _ h2, readsBack_bytes _ _ _ h3,
    readsBack_list readsBack_bytes _ _ _ h4, readsBack_bool _ _ _ h5]
  simp [writeMessage]

theorem readsBack_cfg : ReadsBack readCfg writeCfg := by
  intro bs as r hh
  obtain ⟨_, _, h1, hh⟩ := andThen_eq_ok hh
  obtain ⟨_, _, h2, hh⟩ := andThen_eq_ok hh
  obtain ⟨_, _, h3, hh⟩ := andThen_eq_ok hh
  obtain ⟨_, _, h4, hh⟩ := andThen_eq_ok hh
  cases hh
  rw [readsBack_nat _ _ _ h1, readsBack_bool _ _ _ h2, readsBack_bool _ _ _ h3, readsBack_word _ _ _ _ h4]
  simp [writeCfg]

/-- Four bytes are the bytes of their number. -/
theorem leBytes_leNat (bs : List Byte) (h : bs.length = 4) : leBytes 4 (leNat bs) = bs := by
  match bs, h with
  | [a, b, c, d], _ =>
    have := a.isLt
    have := b.isLt
    have := c.isLt
    have := d.isLt
    simp only [leBytes, leNat, List.cons.injEq, and_true]
    refine ⟨?_, ?_, ?_, ?_⟩ <;> refine BitVec.eq_of_toNat_eq ?_ <;> rw [BitVec.toNat_ofNat] <;> omega

theorem leNat_lt (bs : List Byte) (h : bs.length = 4) : leNat bs < 2 ^ 32 := by
  rw [← leBytes_leNat bs h, leNat_leBytes]
  exact Nat.mod_lt _ (by norm_num)

end Sys2Proof
end

