-- ==== Sys2Proof/Laws/Maps.lean ====
section
/-!
SUPPORT. The keyed storage: what a lookup sees after a store, and that a store keeps the canonical form; then the
same for replay tables and registries.
-/

namespace Sys2Proof.Machine

open Sys2Proof

section
variable {κ α : Type} {ord : κ → Nat}

/-- The entries after a store: the new one, and otherwise old ones. -/
theorem mem_put {k : κ} {v : α} {m : KMap κ α} {e : κ × α} (h : e ∈ KMap.put ord k v m) : e = (k, v) ∨ e ∈ m := by
  induction m with
  | nil => simpa [KMap.put] using h
  | cons e' m ih =>
    obtain ⟨k', v'⟩ := e'
    by_cases h1 : ord k < ord k'
    · simpa [KMap.put, h1] using h
    · by_cases h2 : ord k = ord k'
      · have h : e = (k, v) ∨ e ∈ m := by simpa [KMap.put, h2] using h
        exact h.imp id (List.mem_cons_of_mem _)
      · rcases (by simpa [KMap.put, h1, h2] using h : e = (k', v') ∨ e ∈ KMap.put ord k v m) with h | h
        · exact .inr (by simp [h])
        · exact (ih h).imp id (List.mem_cons_of_mem _)

theorem wf_put (k : κ) (v : α) (m : KMap κ α) (h : KMap.wf ord m) : KMap.wf ord (KMap.put ord k v m) := by
  induction m with
  | nil => simp [KMap.put, KMap.wf]
  | cons e m ih =>
    obtain ⟨k', v'⟩ := e
    obtain ⟨hlt, hm⟩ := List.pairwise_cons.mp h
    by_cases h1 : ord k < ord k'
    · rw [KMap.put, if_pos h1]
      refine List.pairwise_cons.mpr ⟨?_, h⟩
      intro x hx
      rcases List.mem_cons.mp hx with hx | hx
      · exact hx ▸ h1
      · exact h1.trans (hlt x hx)
    · by_cases h2 : ord k = ord k'
      · rw [KMap.put, if_neg h1, if_pos h2]
        exact List.pairwise_cons.mpr ⟨fun x hx => h2.le.trans_lt (hlt x hx), hm⟩
      · rw [KMap.put, if_neg h1, if_neg h2]
        refine List.pairwise_cons.mpr ⟨?_, ih hm⟩
        intro x hx
        obtain ⟨e, he, rfl⟩ := List.mem_map.mp hx
        rcases mem_put he with rfl | he
        · show ord k' < ord k
          omega
        · exact hlt _ (List.mem_map.mpr ⟨e, he, rfl⟩)

section
variable [DecidableEq κ]

@[simp] theorem find_nil (k : κ) : KMap.find k ([] : KMap κ α) = none := rfl

theorem find_cons (k k' : κ) (v : α) (m : KMap κ α) :
    KMap.find k ((k', v) :: m) = if k' = k then some v else KMap.find k m := rfl

theorem find_put_same (k : κ) (v : α) (m : KMap κ α) : KMap.find k (KMap.put ord k v m) = some v := by
  induction m with
  | nil => simp [KMap.put, find_cons]
  | cons e m ih =>
    obtain ⟨k', v'⟩ := e
    by_cases h1 : ord k < ord k'
    · simp [KMap.put, h1, find_cons]
    · by_cases h2 : ord k = ord k'
      · simp [KMap.put, h2, find_cons]
      · have : k' ≠ k := fun h => h2 (by rw [h])
        simp [KMap.put, h1, h2, find_cons, this, ih]

theorem find_put_other (hinj : Function.Injective ord) {k k' : κ} (hne : k' ≠ k) (v : α) (m : KMap κ α) :
    KMap.find k' (KMap.put ord k v m) = KMap.find k' m := by
  induction m with
  | nil => simp [KMap.put, find_cons, hne.symm]
  | cons e m ih =>
    obtain ⟨k₀, v₀⟩ := e
    by_cases h1 : ord k < ord k₀
    · simp [KMap.put, h1, find_cons, hne.symm]
    · by_cases h2 : ord k = ord k₀
      · have : k = k₀ := hinj h2
        subst this
        simp [KMap.put, find_cons, hne.symm]
      · simp [KMap.put, h1, h2, find_cons, ih]

theorem find_put (hinj : Function.Injective ord) (k k' : κ) (v : α) (m : KMap κ α) :
    KMap.find k' (KMap.put ord k v m) = if k' = k then some v else KMap.find k' m := by
  by_cases h : k' = k
  · subst h
    simp [find_put_same]
  · simp [h, find_put_other hinj h]

theorem mem_of_find {k : κ} {v : α} {m : KMap κ α} (h : KMap.find k m = some v) : (k, v) ∈ m := by
  induction m with
  | nil => simp at h
  | cons e m ih =>
    obtain ⟨k', v'⟩ := e
    rw [find_cons] at h
    split at h
    · rename_i hk
      cases h
      exact hk ▸ List.mem_cons_self
    · exact List.mem_cons_of_mem _ (ih h)
end
end

/-! ### Orders of the two keys -/

theorem addrOrd_injective : Function.Injective addrOrd := fun _ _ h => BitVec.eq_of_toNat_eq h

theorem channelOrd_injective : Function.Injective channelOrd := by
  rintro ⟨s, d⟩ ⟨s', d'⟩ h
  have hd := d.isLt
  have hd' := d'.isLt
  simp only [channelOrd] at h
  have hs : s.toNat = s'.toNat := by omega
  have hdd : d.toNat = d'.toNat := by omega
  rw [BitVec.eq_of_toNat_eq hs, BitVec.eq_of_toNat_eq hdd]

/-! ### Replay tables -/

theorem lookup_store (t : ReplayTable) (k k' : ChannelKey) (c : Nat) :
    (t.store k c).lookup k' = if k' = k then some c else t.lookup k' :=
  find_put channelOrd_injective k k' c t

theorem current_store (t : ReplayTable) (k k' : ChannelKey) (c : Nat) :
    (t.store k c).current k' = if k' = k then c else t.current k' := by
  simp only [ReplayTable.current, lookup_store]
  split <;> rfl

theorem wf_tableStore {t : ReplayTable} (h : KMap.wf channelOrd t) (k : ChannelKey) (c : Nat) :
    KMap.wf channelOrd (t.store k c) := wf_put k c t h

/-! ### Registries -/

theorem registry_lookup_store (reg : Registry) (a b : Addr) (n : Node) :
    (reg.store a n).lookup b = if b = a then some n else reg.lookup b :=
  find_put addrOrd_injective a b n reg

theorem wf_registryStore {reg : Registry} (h : reg.wf) (a : Addr) {n : Node} (hn : KMap.wf channelOrd n.rpt) :
    (reg.store a n).wf :=
  ⟨wf_put a n reg h.1, fun e he => (mem_put he).elim (fun h' => h' ▸ hn) (h.2 e)⟩

theorem wf_of_lookup {reg : Registry} (h : reg.wf) {a : Addr} {n : Node} (hl : reg.lookup a = some n) :
    KMap.wf channelOrd n.rpt := h.2 _ (mem_of_find hl)

theorem wf_recordIn {reg : Registry} (h : reg.wf) {a : Addr} {n : Node} (hl : reg.lookup a = some n) (k : ChannelKey)
    (c : Nat) : (recordIn reg a n k c).wf := wf_registryStore h a (wf_tableStore (wf_of_lookup h hl) k c)

theorem lookup_recordIn (reg : Registry) (a b : Addr) (n : Node) (k : ChannelKey) (c : Nat) :
    (recordIn reg a n k c).lookup b = if b = a then some { n with rpt := n.rpt.store k c } else reg.lookup b :=
  registry_lookup_store reg a b _

/-- Resolving an address: present afterwards, every present Node as it was. -/
theorem lookup_resolve (P : Params) (reg : Registry) (d b : Addr) :
    (reg.resolve P d).lookup b = if b = d then some (reg.nodeFor P d) else reg.lookup b := by
  unfold Registry.resolve Registry.nodeFor
  cases h : reg.lookup d with
  | some n =>
    by_cases hb : b = d
    · simp [hb, h]
    · simp [hb]
  | none => simp [registry_lookup_store]

theorem nodeFor_resolve (P : Params) (reg : Registry) (d b : Addr) :
    (reg.resolve P d).nodeFor P b = reg.nodeFor P b := by
  unfold Registry.nodeFor
  rw [lookup_resolve]
  split
  · rename_i h
    simp [h, Registry.nodeFor]
  · rfl

theorem nodeFor_resolveAll (P : Params) (reg : Registry) (ds : List Addr) (b : Addr) :
    (reg.resolveAll P ds).nodeFor P b = reg.nodeFor P b := by
  induction ds generalizing reg with
  | nil => rfl
  | cons d ds ih =>
    show ((reg.resolve P d).resolveAll P ds).nodeFor P b = _
    rw [ih, nodeFor_resolve]

/-- Resolving addresses: each is present afterwards, every Node present before is as it was, nothing else appears. -/
theorem lookup_resolveAll (P : Params) (reg : Registry) (ds : List Addr) (b : Addr) :
    (reg.resolveAll P ds).lookup b = if b ∈ ds then some (reg.nodeFor P b) else reg.lookup b := by
  induction ds generalizing reg with
  | nil => simp [Registry.resolveAll]
  | cons d ds ih =>
    show ((reg.resolve P d).resolveAll P ds).lookup b = _
    rw [ih, nodeFor_resolve, lookup_resolve]
    by_cases hb : b = d
    · simp [hb]
    · simp [hb]

theorem wf_resolve (P : Params) {reg : Registry} (h : reg.wf) (d : Addr) : (reg.resolve P d).wf := by
  unfold Registry.resolve
  split
  · exact h
  · exact wf_registryStore h d (by simp [freshNode, KMap.wf])

theorem wf_resolveAll (P : Params) {reg : Registry} (h : reg.wf) (ds : List Addr) : (reg.resolveAll P ds).wf := by
  induction ds generalizing reg with
  | nil => exact h
  | cons d ds ih => exact ih (wf_resolve P h d)

/-- What a verification can do to the registry: nothing, or the one store of an accepted counter (R121, R124). -/
theorem registryAfter_cases (P : Params) (reg : Registry) (a : Addr) (n : Node) (m : Message) :
    (judge P a n m ≠ .accepted ∧ registryAfter P reg a n m = reg) ∨
    (∃ c, judge P a n m = .accepted ∧ carriedCounter P m.payload = some c ∧ n.rpt.current (messageChannel m) ≤ c ∧
      registryAfter P reg a n m = recordIn reg a n (messageChannel m) c) := by
  by_cases hj : judge P a n m = .accepted
  · right
    have hf : freshness P n m = .accepted := by
      unfold judge at hj
      split at hj
      · exact hj
      · cases hj
    cases hc : carriedCounter P m.payload with
    | none => simp [freshness, hc] at hf
    | some c =>
      refine ⟨c, hj, rfl, ?_, by simp [registryAfter, hj, hc]⟩
      by_contra hlt
      simp [freshness, hc, hlt] at hf
  · refine .inl ⟨hj, ?_⟩
    unfold registryAfter
    split
    · rename_i h _
      exact absurd h hj
    · rfl

end Sys2Proof.Machine
end

