-- ==== Sys2Proof/Laws/State.lean ====
section
/-!
SUPPORT. One lemma per field per update of the state, so that no proof unfolds a record update.
-/

namespace Sys2Proof.Machine

open Sys2Proof

section
variable (s : State) (r : Response) (q : Option TransportRequest) (e : Err) (port : List Transfer)
variable (reg : Registry) (P : Params) (cfg : LinkCfg) (a : Addr) (th : Handle)

@[simp] theorem respond_constructed : (s.respond r q).constructed = s.constructed := rfl
@[simp] theorem respond_cfg : (s.respond r q).cfg = s.cfg := rfl
@[simp] theorem respond_localAddr : (s.respond r q).localAddr = s.localAddr := rfl
@[simp] theorem respond_reg : (s.respond r q).reg = s.reg := rfl
@[simp] theorem respond_th : (s.respond r q).th = s.th := rfl
@[simp] theorem respond_port : (s.respond r q).port = s.port := rfl
@[simp] theorem respond_response : (s.respond r q).response = some r := rfl
@[simp] theorem respond_request : (s.respond r q).request = q := rfl
@[simp] theorem respond_openIn : (s.respond r q).openIn = s.openIn := rfl
@[simp] theorem respond_writeIn : (s.respond r q).writeIn = s.writeIn := rfl
@[simp] theorem respond_readIn : (s.respond r q).readIn = s.readIn := rfl
@[simp] theorem respond_draws : (s.respond r q).draws = s.draws := rfl
@[simp] theorem respond_block : (s.respond r q).block = s.block := rfl
@[simp] theorem respond_inputs : (s.respond r q).inputs = s.inputs := rfl

/-- `answer` and `raise` are `respond`: the lemmas above serve for both. -/
@[simp] theorem answer_eq : s.answer r = s.respond r none := rfl
@[simp] theorem raise_eq : s.raise e q = s.respond (.error e) q := rfl

@[simp] theorem reply_ok : s.reply (.ok r) = s.respond r none := rfl
@[simp] theorem reply_error : s.reply (.error e) = s.respond (.error e) none := rfl

@[simp] theorem withPort_constructed : (s.withPort port).constructed = s.constructed := rfl
@[simp] theorem withPort_cfg : (s.withPort port).cfg = s.cfg := rfl
@[simp] theorem withPort_localAddr : (s.withPort port).localAddr = s.localAddr := rfl
@[simp] theorem withPort_reg : (s.withPort port).reg = s.reg := rfl
@[simp] theorem withPort_th : (s.withPort port).th = s.th := rfl
@[simp] theorem withPort_port : (s.withPort port).port = port := rfl
@[simp] theorem withPort_response : (s.withPort port).response = s.response := rfl
@[simp] theorem withPort_request : (s.withPort port).request = s.request := rfl
@[simp] theorem withPort_openIn : (s.withPort port).openIn = s.openIn := rfl
@[simp] theorem withPort_writeIn : (s.withPort port).writeIn = s.writeIn := rfl
@[simp] theorem withPort_readIn : (s.withPort port).readIn = s.readIn := rfl
@[simp] theorem withPort_draws : (s.withPort port).draws = s.draws := rfl
@[simp] theorem withPort_block : (s.withPort port).block = s.block := rfl

@[simp] theorem withReg_reg : (s.withReg reg).reg = reg := rfl
@[simp] theorem withReg_constructed : (s.withReg reg).constructed = s.constructed := rfl
@[simp] theorem withReg_cfg : (s.withReg reg).cfg = s.cfg := rfl
@[simp] theorem withReg_localAddr : (s.withReg reg).localAddr = s.localAddr := rfl
@[simp] theorem withReg_th : (s.withReg reg).th = s.th := rfl
@[simp] theorem withReg_port : (s.withReg reg).port = s.port := rfl
@[simp] theorem withReg_response : (s.withReg reg).response = s.response := rfl
@[simp] theorem withReg_request : (s.withReg reg).request = s.request := rfl
@[simp] theorem withReg_openIn : (s.withReg reg).openIn = s.openIn := rfl
@[simp] theorem withReg_writeIn : (s.withReg reg).writeIn = s.writeIn := rfl
@[simp] theorem withReg_readIn : (s.withReg reg).readIn = s.readIn := rfl
@[simp] theorem withReg_draws : (s.withReg reg).draws = s.draws := rfl
@[simp] theorem withReg_inputs : (s.withReg reg).inputs = s.inputs := rfl

@[simp] theorem drawn_constructed : s.drawn.constructed = s.constructed := rfl
@[simp] theorem drawn_cfg : s.drawn.cfg = s.cfg := rfl
@[simp] theorem drawn_localAddr : s.drawn.localAddr = s.localAddr := rfl
@[simp] theorem drawn_reg : s.drawn.reg = s.reg := rfl
@[simp] theorem drawn_th : s.drawn.th = s.th := rfl
@[simp] theorem drawn_port : s.drawn.port = s.port := rfl
@[simp] theorem drawn_openIn : s.drawn.openIn = s.openIn := rfl
@[simp] theorem drawn_writeIn : s.drawn.writeIn = s.writeIn := rfl
@[simp] theorem drawn_readIn : s.drawn.readIn = s.readIn := rfl
@[simp] theorem drawn_draws : s.drawn.draws = s.draws + 1 := rfl
@[simp] theorem drawn_block : s.drawn.block = s.block := rfl

@[simp] theorem construct_constructed : (s.construct P cfg a th).constructed = true := rfl
@[simp] theorem construct_cfg : (s.construct P cfg a th).cfg = cfg := rfl
@[simp] theorem construct_localAddr : (s.construct P cfg a th).localAddr = a := rfl
@[simp] theorem construct_reg : (s.construct P cfg a th).reg = [(a, freshNode P a)] := rfl
@[simp] theorem construct_th : (s.construct P cfg a th).th = th := rfl
@[simp] theorem construct_port : (s.construct P cfg a th).port = s.port := rfl
@[simp] theorem construct_openIn : (s.construct P cfg a th).openIn = s.openIn := rfl
@[simp] theorem construct_writeIn : (s.construct P cfg a th).writeIn = s.writeIn := rfl
@[simp] theorem construct_readIn : (s.construct P cfg a th).readIn = s.readIn := rfl
@[simp] theorem construct_draws : (s.construct P cfg a th).draws = s.draws := rfl

@[simp] theorem obtain_block (q : TransportRequest) : (s.obtain q).2.block = s.block := rfl
@[simp] theorem obtain_port (q : TransportRequest) : (s.obtain q).2.port = s.port := rfl
@[simp] theorem txWrite_block (q : TransportRequest) : (s.txWrite q).2.block = s.block := rfl
@[simp] theorem txWrite_port (q : TransportRequest) : (s.txWrite q).2.port = s.port := rfl
@[simp] theorem rxRead_block (q : TransportRequest) : (s.rxRead q).2.block = s.block := rfl
@[simp] theorem rxRead_port (q : TransportRequest) : (s.rxRead q).2.port = s.port := rfl
end

/-- What the refusal before construction can do. -/
theorem whenConstructed_true {s : State} (h : s.constructed = true) (s' : State) : whenConstructed s s' = s' := by
  simp [whenConstructed, h]

theorem whenConstructed_false {s : State} (h : s.constructed = false) (s' : State) :
    whenConstructed s s' = s.raise .notConstructed none := by
  simp [whenConstructed, h]

/-- What a command on a Node's table can do: refused, no such Node, or run on the Node. -/
theorem withNode_cases (a : Addr) (s : State) (f : Node → State) :
    (s.constructed = false ∧ withNode a s f = s.raise .notConstructed none) ∨
    (s.constructed = true ∧ s.reg.lookup a = none ∧ withNode a s f = s.raise .noSuchNode none) ∨
    (∃ n, s.constructed = true ∧ s.reg.lookup a = some n ∧ withNode a s f = f n) := by
  cases hc : s.constructed
  · exact .inl ⟨rfl, whenConstructed_false hc _⟩
  · right
    cases hl : s.reg.lookup a with
    | none => exact .inl ⟨rfl, rfl, by simp [withNode, whenConstructed_true hc, hl]⟩
    | some n => exact .inr ⟨n, rfl, rfl, by simp [withNode, whenConstructed_true hc, hl]⟩

end Sys2Proof.Machine
end

