-- ==== Sys2Proof/Laws/Commands.lean ====
section
/-!
SUPPORT. What each command that touches the transport can do, said once: every ending it has, so that a claim about
it is a short case analysis and never unfolds it.
-/

namespace Sys2Proof.Machine

open Sys2Proof

variable (P : Params) (s : State)

/-- What `FRM.PARSE` can do: an error and no draw, or the parsed message and one draw. -/
theorem frmParseCmd_cases (buf : List Byte) :
    (∃ e, frmParse P s.drawnTimestamp buf = .error e ∧ frmParseCmd P buf s = s.raise e none) ∨
    (∃ m, frmParse P s.drawnTimestamp buf = .ok m ∧ frmParseCmd P buf s = s.drawn.answer (.message m)) := by
  unfold frmParseCmd
  cases h : frmParse P s.drawnTimestamp buf with
  | error e => exact .inl ⟨e, rfl, rfl⟩
  | ok m => exact .inr ⟨m, rfl, rfl⟩

/-- What `LINK.CONSTRUCT` can do: a raise that writes no block state, or the construction. -/
theorem linkConstructCmd_cases (cfg : LinkCfg) :
    (s.constructed = true ∧ linkConstructCmd P cfg s = s.raise .alreadyConstructed none) ∨
    (s.constructed = false ∧ 63 < claim (addrMembers cfg.claimed) ∧
      linkConstructCmd P cfg s = s.raise .addressSpaceExhausted none) ∨
    (s.constructed = false ∧ claim (addrMembers cfg.claimed) ≤ 63 ∧ (s.obtain (obtainRequest cfg)).1 = .failure ∧
      linkConstructCmd P cfg s =
        (s.obtain (obtainRequest cfg)).2.raise .transportFailure (some (obtainRequest cfg))) ∨
    (∃ th, s.constructed = false ∧ claim (addrMembers cfg.claimed) ≤ 63 ∧
      (s.obtain (obtainRequest cfg)).1 = .handle th ∧
      linkConstructCmd P cfg s =
        ((s.obtain (obtainRequest cfg)).2.construct P cfg (BitVec.ofNat 6 (claim (addrMembers cfg.claimed))) th).respond
          .ok (some (obtainRequest cfg))) := by
  unfold linkConstructCmd
  cases hc : s.constructed
  · by_cases ha : 63 < claim (addrMembers cfg.claimed)
    · exact .inr (.inl ⟨rfl, ha, by simp [addrMax, ha]⟩)
    · right; right
      cases ho : (s.obtain (obtainRequest cfg)).1 with
      | failure => exact .inl ⟨rfl, by omega, rfl, by simp [addrMax, ha, ho]⟩
      | handle th => exact .inr ⟨th, rfl, by omega, rfl, by simp [addrMax, ha, ho]⟩
  · exact .inl ⟨rfl, rfl⟩

/-- What the last steps of a send can do: both endings are results, the block is as it was. -/
theorem transmit_cases (m : Message) (buf : List Byte) :
    ((s.txWrite (.write s.th buf)).1 = .failure ∧ transmit s m buf =
      (s.txWrite (.write s.th buf)).2.respond .transportFailure (some (.write s.th buf))) ∨
    (∃ n, (s.txWrite (.write s.th buf)).1 = .written n ∧ transmit s m buf =
      (s.txWrite (.write s.th buf)).2.respond (.sent m n) (some (.write s.th buf))) := by
  unfold transmit
  cases h : (s.txWrite (.write s.th buf)).1 with
  | failure => exact .inl ⟨rfl, by simp [h]⟩
  | written n => exact .inr ⟨n, rfl, by simp [h]⟩

/-- What `LINK.SEND` can do: a raise that writes nothing, or the write of the built buffer with the Nodes of the
destinations created. -/
theorem linkSendCmd_cases (m : Message) :
    (∃ e, linkSendCmd P m s = s.raise e none) ∨
    (∃ buf, s.constructed = true ∧ m.tags = [] ∧ frmBuild P s.cfg.fdEnabled (outgoing P s m) = .ok buf ∧
      linkSendCmd P m s = transmit (s.withReg (s.reg.resolveAll P m.aid.dests)) (outgoing P s m) buf) := by
  unfold linkSendCmd
  cases hc : s.constructed
  · exact .inl ⟨_, whenConstructed_false hc _⟩
  · simp only [whenConstructed_true hc]
    by_cases ht : m.tags = []
    · simp only [ht, ne_eq, not_true_eq_false, if_false]
      cases hsel : frmSel s.cfg.fdEnabled (m.payload.length + m.aid.dests.length * P.tagLen) with
      | error e => exact .inl ⟨e, rfl⟩
      | ok k =>
        cases hb : frmBuild P s.cfg.fdEnabled (outgoing P s m) with
        | error e => exact .inl ⟨e, rfl⟩
        | ok buf => exact .inr ⟨buf, trivial, trivial, rfl, rfl⟩
    · exact .inl ⟨_, by simp only [ht, ne_eq, not_false_eq_true, if_true]; rfl⟩

/-- What `LINK.RECV` can do: a result or a raise that writes no block state, or the delivery of a parsed message, in
which the local Node verifies over the resolved registry. -/
theorem linkRecvCmd_cases (t : Timeout) :
    (s.constructed = false ∧ linkRecvCmd P t s = s.raise .notConstructed none) ∨
    (s.constructed = true ∧ (s.rxRead (.read s.th t)).1 = .none ∧
      linkRecvCmd P t s = (s.rxRead (.read s.th t)).2.respond .noMessage (some (.read s.th t))) ∨
    (s.constructed = true ∧ (s.rxRead (.read s.th t)).1 = .failure ∧
      linkRecvCmd P t s = (s.rxRead (.read s.th t)).2.respond .transportFailure (some (.read s.th t))) ∨
    (∃ buf e, s.constructed = true ∧ (s.rxRead (.read s.th t)).1 = .frame buf ∧
      frmParse P (s.rxRead (.read s.th t)).2.drawnTimestamp buf = .error e ∧
      linkRecvCmd P t s = (s.rxRead (.read s.th t)).2.raise e (some (.read s.th t))) ∨
    (∃ buf m, s.constructed = true ∧ (s.rxRead (.read s.th t)).1 = .frame buf ∧
      frmParse P (s.rxRead (.read s.th t)).2.drawnTimestamp buf = .ok m ∧
      (s.reg.resolveAll P (m.aid.source :: m.aid.dests)).lookup s.localAddr = none ∧
      linkRecvCmd P t s = (s.rxRead (.read s.th t)).2.drawn.raise .noSuchNode (some (.read s.th t))) ∨
    (∃ buf m n, s.constructed = true ∧ (s.rxRead (.read s.th t)).1 = .frame buf ∧
      frmParse P (s.rxRead (.read s.th t)).2.drawnTimestamp buf = .ok m ∧
      (s.reg.resolveAll P (m.aid.source :: m.aid.dests)).lookup s.localAddr = some n ∧
      linkRecvCmd P t s = ((s.rxRead (.read s.th t)).2.drawn.withReg
        (registryAfter P (s.reg.resolveAll P (m.aid.source :: m.aid.dests)) s.localAddr n m)).respond
          (.received (withAccepted m (judge P s.localAddr n m)) (judge P s.localAddr n m)) (some (.read s.th t))) := by
  unfold linkRecvCmd
  cases hc : s.constructed
  · exact .inl ⟨rfl, whenConstructed_false hc _⟩
  · right
    simp only [whenConstructed_true hc]
    cases hr : (s.rxRead (.read s.th t)).1 with
    | none => exact .inl ⟨trivial, rfl, rfl⟩
    | failure => exact .inr (.inl ⟨trivial, rfl, rfl⟩)
    | frame buf =>
      right; right
      simp only [received]
      cases hp : frmParse P (s.rxRead (.read s.th t)).2.drawnTimestamp buf with
      | error e => exact .inl ⟨buf, e, trivial, rfl, hp, rfl⟩
      | ok m =>
        right
        simp only [deliver]
        cases hl : (s.reg.resolveAll P (m.aid.source :: m.aid.dests)).lookup s.localAddr with
        | none =>
          refine .inl ⟨buf, m, trivial, rfl, hp, hl, ?_⟩
          rw [show ((s.rxRead (.read s.th t)).2.drawn.reg.resolveAll P (m.aid.source :: m.aid.dests)).lookup
            (s.rxRead (.read s.th t)).2.drawn.localAddr = none from hl]
        | some n =>
          refine .inr ⟨buf, m, n, trivial, rfl, hp, hl, ?_⟩
          rw [show ((s.rxRead (.read s.th t)).2.drawn.reg.resolveAll P (m.aid.source :: m.aid.dests)).lookup
            (s.rxRead (.read s.th t)).2.drawn.localAddr = some n from hl]
          rfl

/-! ### Every command at once -/

/-- The block, the command port and the transport's answers are as they were, and there is an answer. -/
def OnlyAnswers (s t : State) : Prop :=
  t.block = s.block ∧ t.request = none ∧ t.port = s.port ∧ t.openIn = s.openIn ∧ t.writeIn = s.writeIn ∧
    t.readIn = s.readIn ∧ ∃ r, t.response = some r

theorem onlyAnswers_respond (s : State) (r : Response) : OnlyAnswers s (s.respond r none) :=
  ⟨rfl, rfl, rfl, rfl, rfl, rfl, r, rfl⟩

theorem onlyAnswers_reply (s : State) (r : Except Err Response) : OnlyAnswers s (s.reply r) := by
  cases r <;> exact onlyAnswers_respond _ _

theorem onlyAnswers_whenConstructed {s t : State} (h : OnlyAnswers s t) : OnlyAnswers s (whenConstructed s t) := by
  cases hc : s.constructed
  · rw [whenConstructed_false hc]; exact onlyAnswers_respond _ _
  · rw [whenConstructed_true hc]; exact h

theorem onlyAnswers_withNode {a : Addr} {s : State} {f : Node → State} (h : ∀ n, OnlyAnswers s (f n)) :
    OnlyAnswers s (withNode a s f) := by
  rcases withNode_cases a s f with ⟨_, h1⟩ | ⟨_, _, h1⟩ | ⟨n, _, _, h1⟩ <;> rw [h1]
  · exact onlyAnswers_respond _ _
  · exact onlyAnswers_respond _ _
  · exact h n

/-- The pure commands and the readers only answer. -/
theorem onlyAnswers_exec {i : Instr} {s t : State} (hi : isPure i = true ∨ isReader i = true)
    (h : exec i s = .next t) : OnlyAnswers s t := by
  cases i <;> simp [isPure, isReader] at hi <;> simp only [exec] at h <;> rw [← Host.Outcome.next.inj h]
  case frmParse buf =>
    rcases frmParseCmd_cases params s buf with ⟨e, _, h1⟩ | ⟨m, _, h1⟩ <;> rw [h1] <;>
      exact ⟨rfl, rfl, rfl, rfl, rfl, rfl, _, rfl⟩
  case frmSel => exact onlyAnswers_whenConstructed (onlyAnswers_reply _ _)
  case frmBuild => exact onlyAnswers_whenConstructed (onlyAnswers_reply _ _)
  case msgNew => exact onlyAnswers_whenConstructed (onlyAnswers_reply _ _)
  case rptEntry => exact onlyAnswers_withNode fun _ => onlyAnswers_respond _ _
  case rptCurrent => exact onlyAnswers_withNode fun _ => onlyAnswers_respond _ _
  all_goals first | exact onlyAnswers_respond _ _ | exact onlyAnswers_reply _ _

/-- What a command can be. -/
theorem instr_cases (i : Instr) :
    (isPure i = true ∨ isReader i = true) ∨ (∃ a src ds c, i = .rptRecord a src ds c) ∨
    (∃ a m, i = .nodeVerify a m) ∨ (∃ cfg, i = .linkConstruct cfg) ∨ (∃ d, i = .linkResolve d) ∨
    (∃ m, i = .linkSend m) ∨ (∃ tm, i = .linkRecv tm) := by
  cases i <;> simp [isPure, isReader]

/-- Everything a command can do: it only answers, or it is one of the six that write and does its own write. -/
theorem exec_cases {i : Instr} {s t : State} (h : exec i s = .next t) :
    OnlyAnswers s t ∨
    (∃ a src ds c n, i = .rptRecord a src ds c ∧ s.constructed = true ∧ s.reg.lookup a = some n ∧
      t = (s.withReg (recordIn s.reg a n (channelKey src ds) c)).respond .done none) ∨
    (∃ a m n, i = .nodeVerify a m ∧ s.constructed = true ∧ s.reg.lookup a = some n ∧
      t = (s.withReg (registryAfter params s.reg a n m)).respond
        (.verified (withAccepted m (judge params a n m)) (judge params a n m)) none) ∨
    (∃ cfg e q, i = .linkConstruct cfg ∧ s.constructed = false ∧ t = (s.obtain q).2.respond (.error e) (some q)) ∨
    (∃ cfg a th q, i = .linkConstruct cfg ∧ s.constructed = false ∧
      t = ((s.obtain q).2.construct params cfg a th).respond .ok (some q)) ∨
    (∃ d, i = .linkResolve d ∧ s.constructed = true ∧
      t = (s.withReg (s.reg.resolve params d)).respond (.node (s.reg.nodeFor params d)) none) ∨
    (∃ m r q, i = .linkSend m ∧ s.constructed = true ∧ (r = .transportFailure ∨ ∃ m' n, r = .sent m' n) ∧
      t = ((s.withReg (s.reg.resolveAll params m.aid.dests)).txWrite q).2.respond r (some q)) ∨
    (∃ tm r q, i = .linkRecv tm ∧ s.constructed = true ∧
      (t = (s.rxRead q).2.respond r (some q) ∨ t = (s.rxRead q).2.drawn.respond r (some q))) ∨
    (∃ tm m n q, i = .linkRecv tm ∧ s.constructed = true ∧
      (s.reg.resolveAll params (m.aid.source :: m.aid.dests)).lookup s.localAddr = some n ∧
      t = ((s.rxRead q).2.drawn.withReg
        (registryAfter params (s.reg.resolveAll params (m.aid.source :: m.aid.dests)) s.localAddr n m)).respond
          (.received (withAccepted m (judge params s.localAddr n m)) (judge params s.localAddr n m)) (some q)) := by
  rcases instr_cases i with hi | ⟨a, b, c, d, rfl⟩ | ⟨a, m, rfl⟩ | ⟨cfg, rfl⟩ | ⟨d, rfl⟩ | ⟨m, rfl⟩ | ⟨tm, rfl⟩
  · exact .inl (onlyAnswers_exec hi h)
  · have h := Host.Outcome.next.inj h
    rcases withNode_cases a s (fun n => (s.withReg (recordIn s.reg a n (channelKey b c) d)).answer .done) with
      ⟨_, h1⟩ | ⟨_, _, h1⟩ | ⟨n, hc, hn, h1⟩ <;> rw [h1] at h <;> subst h
    · exact .inl (onlyAnswers_respond _ _)
    · exact .inl (onlyAnswers_respond _ _)
    · exact .inr (.inl ⟨a, b, c, d, n, rfl, hc, hn, rfl⟩)
  · have h := Host.Outcome.next.inj h
    rcases withNode_cases a s (fun n => (s.withReg (registryAfter params s.reg a n m)).answer
      (.verified (withAccepted m (judge params a n m)) (judge params a n m))) with
      ⟨_, h1⟩ | ⟨_, _, h1⟩ | ⟨n, hc, hn, h1⟩ <;> rw [nodeVerifyCmd, h1] at h <;> subst h
    · exact .inl (onlyAnswers_respond _ _)
    · exact .inl (onlyAnswers_respond _ _)
    · exact .inr (.inr (.inl ⟨a, m, n, rfl, hc, hn, rfl⟩))
  · have h := Host.Outcome.next.inj h
    rcases linkConstructCmd_cases params s cfg with
      ⟨_, h1⟩ | ⟨_, _, h1⟩ | ⟨hc, _, _, h1⟩ | ⟨th, hc, _, _, h1⟩ <;> rw [h1] at h <;> subst h
    · exact .inl (onlyAnswers_respond _ _)
    · exact .inl (onlyAnswers_respond _ _)
    · exact .inr (.inr (.inr (.inl ⟨cfg, _, _, rfl, hc, rfl⟩)))
    · exact .inr (.inr (.inr (.inr (.inl ⟨cfg, _, th, _, rfl, hc, rfl⟩))))
  · have h := Host.Outcome.next.inj h
    subst h
    unfold linkResolveCmd
    cases hc : s.constructed
    · rw [whenConstructed_false hc]; exact .inl (onlyAnswers_respond _ _)
    · rw [whenConstructed_true hc]; exact .inr (.inr (.inr (.inr (.inr (.inl ⟨d, rfl, rfl, rfl⟩)))))
  · have h := Host.Outcome.next.inj h
    rcases linkSendCmd_cases params s m with ⟨e, h1⟩ | ⟨buf, hc, _, _, h1⟩ <;> rw [h1] at h
    · subst h; exact .inl (onlyAnswers_respond _ _)
    · refine .inr (.inr (.inr (.inr (.inr (.inr (.inl ?_))))))
      rcases transmit_cases (s.withReg (s.reg.resolveAll params m.aid.dests)) (outgoing params s m) buf with
        ⟨_, h2⟩ | ⟨n, _, h2⟩ <;> rw [h2] at h <;> subst h
      · exact ⟨m, _, _, rfl, hc, .inl rfl, rfl⟩
      · exact ⟨m, _, _, rfl, hc, .inr ⟨_, _, rfl⟩, rfl⟩
  · have h := Host.Outcome.next.inj h
    rcases linkRecvCmd_cases params s tm with ⟨_, h1⟩ | ⟨hc, _, h1⟩ | ⟨hc, _, h1⟩ | ⟨_, e, hc, _, _, h1⟩ |
      ⟨_, m, hc, _, _, _, h1⟩ | ⟨_, m, n, hc, _, _, hl, h1⟩ <;> rw [h1] at h <;> subst h
    · exact .inl (onlyAnswers_respond _ _)
    · exact .inr (.inr (.inr (.inr (.inr (.inr (.inr (.inl ⟨tm, _, _, rfl, hc, .inl rfl⟩)))))))
    · exact .inr (.inr (.inr (.inr (.inr (.inr (.inr (.inl ⟨tm, _, _, rfl, hc, .inl rfl⟩)))))))
    · exact .inr (.inr (.inr (.inr (.inr (.inr (.inr (.inl ⟨tm, _, _, rfl, hc, .inl rfl⟩)))))))
    · exact .inr (.inr (.inr (.inr (.inr (.inr (.inr (.inl ⟨tm, _, _, rfl, hc, .inr rfl⟩)))))))
    · exact .inr (.inr (.inr (.inr (.inr (.inr (.inr (.inr ⟨tm, m, n, _, rfl, hc, hl, rfl⟩)))))))

/-- Everything a step that goes on can do: nothing, or one command. -/
theorem step_cases {s t : State} (h : step s = .next t) : t = s ∨ ∃ i rest, exec i (s.withPort rest) = .next t := by
  unfold step State.fetch at h
  cases hp : s.port with
  | nil =>
    simp only [hp] at h
    exact .inl (Host.Outcome.next.inj h).symm
  | cons tr rest =>
    simp only [hp] at h
    cases hd : decode tr with
    | ok i => rw [hd] at h; exact .inr ⟨i, rest, h⟩
    | error e => rw [hd] at h; cases e <;> cases h

/-- Everything a command can do to the registry of a constructed link. -/
theorem reg_cases {i : Instr} {s t : State} (hc : s.constructed = true) (h : exec i s = .next t) :
    t.reg = s.reg ∨
    (∃ a src ds c n, i = .rptRecord a src ds c ∧ s.reg.lookup a = some n ∧
      t.reg = recordIn s.reg a n (channelKey src ds) c) ∨
    (∃ a m n, i = .nodeVerify a m ∧ s.reg.lookup a = some n ∧ t.reg = registryAfter params s.reg a n m) ∨
    (∃ ds, t.reg = s.reg.resolveAll params ds) ∨
    (∃ tm ds n m, i = .linkRecv tm ∧ (s.reg.resolveAll params ds).lookup s.localAddr = some n ∧
      t.reg = registryAfter params (s.reg.resolveAll params ds) s.localAddr n m) := by
  rcases exec_cases h with ⟨h1, _⟩ | ⟨a, src, ds, c, n, rfl, _, hn, rfl⟩ | ⟨a, m, n, rfl, _, hn, rfl⟩ |
    ⟨cfg, e, q, rfl, hf, rfl⟩ | ⟨cfg, a, th, q, rfl, hf, rfl⟩ | ⟨d, rfl, _, rfl⟩ | ⟨m, r, q, rfl, _, _, rfl⟩ |
    ⟨tm, r, q, rfl, _, rfl | rfl⟩ | ⟨tm, m, n, q, rfl, _, hl, rfl⟩
  · simp only [State.block, Prod.mk.injEq] at h1; exact .inl h1.2.2.2.1
  · exact .inr (.inl ⟨a, src, ds, c, n, rfl, hn, rfl⟩)
  · exact .inr (.inr (.inl ⟨a, m, n, rfl, hn, rfl⟩))
  · rw [hc] at hf; cases hf
  · rw [hc] at hf; cases hf
  · exact .inr (.inr (.inr (.inl ⟨[d], rfl⟩)))
  · exact .inr (.inr (.inr (.inl ⟨m.aid.dests, rfl⟩)))
  · exact .inl rfl
  · exact .inl rfl
  · exact .inr (.inr (.inr (.inr ⟨tm, _, n, m, rfl, hl, rfl⟩)))

end Sys2Proof.Machine
end

