-- ==== Sys2Proof/Laws/Frames.lean ====
section
/-!
SUPPORT. What the frame codec's helpers can do: identifier bytes read back, the shape chosen for a length, the parts
of a laid-out frame, the split of a body.
-/

namespace Sys2Proof.Machine

open Sys2Proof

@[simp] theorem length_identBytes (o : ByteOrder) (i : Ident) : (identBytes o i).length = 4 := by
  cases o <;> simp [identBytes]

@[simp] theorem identOfBytes_identBytes (o : ByteOrder) (i : Ident) : identOfBytes o (identBytes o i) = i := by
  cases o <;>
    simp only [identOfBytes, identBytes, List.reverse_reverse, leNat_leBytes] <;>
    exact BitVec.eq_of_toNat_eq (by have := i.isLt; simp only [BitVec.toNat_ofNat]; omega)

@[simp] theorem length_zeros (n : Nat) : (zeros n).length = n := by simp [zeros]

/-- R48: what the builder sets, the parser masks off. -/
@[simp] theorem identParse_identBuild (v : V29) : identParse (identBuild v) = v := by
  refine BitVec.eq_of_getLsbD_eq fun i hi => ?_
  have hi' : i < 29 := hi
  simp only [identParse, identBuild, extFlag, BitVec.getLsbD_setWidth, BitVec.getLsbD_and, BitVec.getLsbD_or]
  interval_cases i <;> simp

/-- R80: what `FRM.SEL` can answer. -/
theorem frmSel_cases (fd : Bool) (n : Nat) :
    (n ≤ 8 ∧ frmSel fd n = .ok .classic) ∨ (8 < n ∧ n ≤ 64 ∧ fd = true ∧ frmSel fd n = .ok .fd) ∨
    ((64 < n ∨ (8 < n ∧ fd = false)) ∧ frmSel fd n = .error (.malformedMessage .payloadTooLong)) := by
  unfold frmSel classicCap fdCap
  by_cases h8 : n ≤ 8
  · exact .inl ⟨h8, by simp [h8]⟩
  · right
    by_cases h64 : 64 < n
    · exact .inr ⟨.inl h64, by simp [h8, h64]⟩
    · cases fd
      · exact .inr ⟨.inr ⟨by omega, rfl⟩, by simp [h8, h64]⟩
      · exact .inl ⟨by omega, by omega, rfl, by simp [h8, h64]⟩

/-- A body that `FRM.SEL` accepts fits the shape and the length byte. -/
theorem frmSel_fits {fd : Bool} {n : Nat} {k : FrameKind} (h : frmSel fd n = .ok k) : n ≤ k.cap ∧ n ≤ 64 := by
  rcases frmSel_cases fd n with ⟨hn, he⟩ | ⟨_, hn, _, he⟩ | ⟨_, he⟩ <;> rw [he] at h <;> cases h
  · exact ⟨hn, by omega⟩
  · exact ⟨hn, hn⟩

/-- R32: the size of a laid-out frame. -/
theorem length_layFrame (P : Params) (k : FrameKind) (i : Ident) (body : List Byte) (h : body.length ≤ k.cap) :
    (layFrame P k i body).length = 8 + k.cap := by
  simp only [layFrame, List.length_append, length_identBytes, List.length_singleton, length_zeros]
  omega

theorem kindOfSize_layFrame (P : Params) (k : FrameKind) (i : Ident) (body : List Byte) (h : body.length ≤ k.cap) :
    kindOfSize (layFrame P k i body).length = .ok k := by
  rw [length_layFrame P k i body h]
  cases k <;> rfl

/-- R91: the view of a laid-out frame is what was laid out. -/
theorem frameView_layFrame (P : Params) (k : FrameKind) (i : Ident) (body : List Byte) (h : body.length ≤ k.cap) :
    frameView P k (layFrame P k i body) =
      .ok { ident := i, length := BitVec.ofNat 8 body.length, body := body } := by
  have h64 : body.length ≤ 64 := by
    cases k
    · exact h.trans (by decide)
    · exact h
  have hlen : (BitVec.ofNat 8 body.length).toNat = body.length := by
    simp only [BitVec.toNat_ofNat]
    omega
  have hid := length_identBytes P.idByteOrder i
  have hget : (layFrame P k i body).getD 4 0 = BitVec.ofNat 8 body.length := by
    simp [layFrame, List.getD, hid]
  have htake : (layFrame P k i body).take 4 = identBytes P.idByteOrder i := by
    simp [layFrame, List.append_assoc, hid]
  have hdrop : (layFrame P k i body).drop 8 = body ++ zeros (k.cap - body.length) := by
    simp [layFrame, List.drop_append, hid, zeros]
  have hcap : ¬ k.cap < body.length := by omega
  simp only [frameView, hget, htake, hdrop, hlen, hcap, if_false, identOfBytes_identBytes]
  simp

theorem length_lastN (n : Nat) (bs : List Byte) (h : n ≤ bs.length) : (lastN n bs).length = n := by
  simp only [lastN, List.length_drop]
  omega

/-- R98: a tag has `TAG_LEN` bytes. -/
@[simp] theorem length_macTag (P : Params) (key payload : List Byte) : (macTag P key payload).length = P.tagLen :=
  length_lastN _ _ (by rw [P.mac_length]; exact P.tagLen_le)

/-- R102 as a rewrite. -/
theorem macVerify_iff (P : Params) (key payload tag : List Byte) :
    macVerify P key payload tag = true ↔ tag = macTag P key payload := by
  simp [macVerify]

end Sys2Proof.Machine
end

