-- ==== Sys2Proof/Laws/Operations.lean ====
section
/-!
SUPPORT. What the shared operations of the commands do, in the terms of Sys2Proof/Safety.lean: arbitration ids, the
frame builder and the parser on what was built, sets of addresses, the tag a Node checks, the address claim.
-/

namespace Sys2Proof.Machine

open Sys2Proof

/-! ### Arbitration ids -/

/-- Fields that keep to their widths, or-ed in place, are added (R45, R46). -/
theorem fields_or (p s q d0 d1 d2 : Nat) (hs : s < 64) (hq : q < 4) (h0 : d0 < 64) (h1 : d1 < 64) (h2 : d2 < 64) :
    ((p <<< 26) ||| (s <<< 20) ||| (q <<< 18) ||| (d0 <<< 12) ||| (d1 <<< 6) ||| d2) = arbNumber p s q d0 d1 d2 := by
  simp only [Nat.or_assoc]
  rw [← Nat.shiftLeft_add_eq_or_of_lt (i := 6) (by omega)]
  rw [← Nat.shiftLeft_add_eq_or_of_lt (i := 12) (by rw [Nat.shiftLeft_eq]; omega)]
  rw [← Nat.shiftLeft_add_eq_or_of_lt (i := 18) (by simp only [Nat.shiftLeft_eq]; omega)]
  rw [← Nat.shiftLeft_add_eq_or_of_lt (i := 20) (by simp only [Nat.shiftLeft_eq]; omega)]
  rw [← Nat.shiftLeft_add_eq_or_of_lt (i := 26) (by simp only [Nat.shiftLeft_eq]; omega)]
  simp only [Nat.shiftLeft_eq, arbNumber]
  omega

/-- A destination slot, filled or not, holds a 6-bit number. -/
theorem slot_lt {ds : List Nat} (h : ∀ d ∈ ds, d ≤ 63) (i : Nat) : ds.getD i 0 < 64 := by
  by_cases hi : i < ds.length
  · have := h _ (List.getElem_mem hi)
    simp only [List.getD, List.getElem?_eq_getElem hi, Option.getD_some]
    omega
  · simp [List.getD, hi]

theorem aidValid_iff (p src : Nat) (ds : List Nat) : aidValid p src ds = true ↔ InRange p src ds := by
  simp only [aidValid, Bool.and_eq_true, List.all_eq_true, decide_eq_true_eq, and_assoc]

/-- What encoding does in range: the number of R45. -/
theorem aidEncode_ok {p src : Nat} {ds : List Nat} (h : InRange p src ds) : ∃ v : V29, aidEncode p src ds = .ok v ∧
    v.toNat = arbNumber p src ds.length (ds.getD 0 0) (ds.getD 1 0) (ds.getD 2 0) := by
  refine ⟨_, by rw [aidEncode, if_pos ((aidValid_iff _ _ _).2 h)], ?_⟩
  obtain ⟨hp, hs, hl, hd⟩ := h
  have h0 := slot_lt hd 0
  have h1 := slot_lt hd 1
  have h2 := slot_lt hd 2
  rw [assemble, fields_or _ _ _ _ _ _ (by omega) (by omega) h0 h1 h2, BitVec.toNat_ofNat]
  exact Nat.mod_eq_of_lt (by simp only [arbNumber]; omega)

/-- What the six fields are, as numbers (R47). -/
theorem extractFields_toNat (v : V29) :
    (extractFields v).p.toNat = v.toNat / 2 ^ 26 ∧ (extractFields v).s.toNat = v.toNat / 2 ^ 20 % 64 ∧
    (extractFields v).q.toNat = v.toNat / 2 ^ 18 % 4 ∧ (extractFields v).d0.toNat = v.toNat / 2 ^ 12 % 64 ∧
    (extractFields v).d1.toNat = v.toNat / 2 ^ 6 % 64 ∧ (extractFields v).d2.toNat = v.toNat % 64 := by
  have := v.isLt
  simp only [extractFields, BitVec.toNat_ofNat, Nat.shiftRight_eq_div_pow]
  rw [show (7 : Nat) = 2 ^ 3 - 1 by rfl, show (63 : Nat) = 2 ^ 6 - 1 by rfl, show (3 : Nat) = 2 ^ 2 - 1 by rfl]
  simp only [Nat.and_two_pow_sub_one_eq_mod]
  omega

/-- What decoding gives, as numbers (R72). -/
theorem aidDecode_toNat (v : V29) :
    (aidDecode v).priority.toNat = v.toNat / 2 ^ 26 ∧ (aidDecode v).source.toNat = v.toNat / 2 ^ 20 % 64 ∧
    (aidDecode v).dests.map BitVec.toNat =
      [v.toNat / 2 ^ 12 % 64, v.toNat / 2 ^ 6 % 64, v.toNat % 64].take (v.toNat / 2 ^ 18 % 4) := by
  obtain ⟨e1, e2, e3, e4, e5, e6⟩ := extractFields_toNat v
  simp only [aidDecode, List.map_take, List.map_cons, List.map_nil, e1, e2, e3, e4, e5, e6]
  exact ⟨trivial, trivial, trivial⟩

theorem length_aidDecode (v : V29) : (aidDecode v).dests.length = v.toNat / 2 ^ 18 % 4 := by
  have := congrArg List.length (aidDecode_toNat v).2.2
  simp only [List.length_map, List.length_take, List.length_cons, List.length_nil] at this
  omega

/-- Up to three destinations are the slots they fill. -/
theorem slots_take (ds : List Nat) (h : ds.length ≤ 3) :
    [ds.getD 0 0, ds.getD 1 0, ds.getD 2 0].take ds.length = ds := by
  match ds, h with
  | [], _ => rfl
  | [a], _ => rfl
  | [a, b], _ => rfl
  | [a, b, c], _ => rfl

/-- Decoding an encoded id gives the fields back. -/
theorem aidDecode_of_encode {p src : Nat} {ds : List Nat} {v : V29} (h : InRange p src ds)
    (hv : aidEncode p src ds = .ok v) : (aidDecode v).priority.toNat = p ∧ (aidDecode v).source.toNat = src ∧
    (aidDecode v).dests.map BitVec.toNat = ds := by
  obtain ⟨v', hv', hn⟩ := aidEncode_ok h
  obtain rfl : v' = v := by rw [hv] at hv'; cases hv'; rfl
  obtain ⟨hp, hs, hl, hd⟩ := h
  have h0 := slot_lt hd 0
  have h1 := slot_lt hd 1
  have h2 := slot_lt hd 2
  obtain ⟨e1, e2, e3⟩ := aidDecode_toNat v'
  rw [e1, e2, e3]
  simp only [arbNumber] at hn
  refine ⟨by omega, by omega, ?_⟩
  rw [show v'.toNat / 2 ^ 18 % 4 = ds.length by omega, show v'.toNat / 2 ^ 12 % 64 = ds.getD 0 0 by omega,
    show v'.toNat / 2 ^ 6 % 64 = ds.getD 1 0 by omega, show v'.toNat % 64 = ds.getD 2 0 by omega, slots_take ds hl]

/-- A well-formed id is encoded, to its own number, and decodes to itself. -/
theorem encodeAid_ok {aid : ArbId} (h : aid.wellFormed = true) :
    ∃ v, encodeAid aid = .ok v ∧ v.toNat = aidNumber aid ∧ aidDecode v = aid := by
  have hr : InRange aid.priority.toNat aid.source.toNat (aid.dests.map BitVec.toNat) := by
    refine ⟨by have := aid.priority.isLt; omega, by have := aid.source.isLt; omega,
      by rw [List.length_map]; exact of_decide_eq_true h, fun d hd => ?_⟩
    obtain ⟨x, _, rfl⟩ := List.mem_map.1 hd
    have := x.isLt
    omega
  obtain ⟨v, hv, hn⟩ := aidEncode_ok hr
  obtain ⟨e1, e2, e3⟩ := aidDecode_of_encode hr hv
  refine ⟨v, hv, hn, ?_⟩
  generalize aidDecode v = a at *
  obtain ⟨p, s, d⟩ := a
  obtain ⟨p', s', d'⟩ := aid
  simp only at e1 e2 e3
  rw [BitVec.eq_of_toNat_eq e1, BitVec.eq_of_toNat_eq e2,
    List.map_injective_iff.2 (fun a b => BitVec.eq_of_toNat_eq) e3]

/-! ### Identifiers and frames -/

theorem identBuild_toNat (v : V29) : (identBuild v).toNat = v.toNat + 2 ^ 31 := by
  have := v.isLt
  simp only [identBuild, extFlag, BitVec.toNat_or, BitVec.toNat_setWidth, BitVec.toNat_ofNat]
  rw [Nat.mod_eq_of_lt (by omega), Nat.or_comm]
  have := Nat.shiftLeft_add_eq_or_of_lt (i := 31) (b := v.toNat) (by omega) 1
  simp only [Nat.shiftLeft_eq] at this
  norm_num at this ⊢
  omega

theorem identParse_toNat (i : Ident) : (identParse i).toNat = i.toNat % 2 ^ 29 := by
  simp only [identParse, BitVec.toNat_setWidth, BitVec.toNat_and, BitVec.toNat_ofNat]
  rw [show (0x1FFFFFFF % 2 ^ 32 : Nat) = 2 ^ 29 - 1 by norm_num, Nat.and_two_pow_sub_one_eq_mod, Nat.mod_mod]

theorem tagsMatch_iff (P : Params) (m : Message) : tagsMatch P m = true ↔ TagsFitFor P m := by
  simp [tagsMatch, TagsFitFor]

theorem frmSel_fit {fd : Bool} {n : Nat} (h : Fits fd n) : frmSel fd n = .ok (if n ≤ 8 then .classic else .fd) := by
  rcases frmSel_cases fd n with ⟨h', e⟩ | ⟨h1, h2, h3, e⟩ | ⟨h', e⟩
  · rw [e, if_pos h']
  · rw [e, if_neg (by omega)]
  · rcases h with h | h
    · omega
    · rcases h' with h' | h'
      · omega
      · rw [h.2] at h'; cases h'.2

theorem frmSel_nofit {fd : Bool} {n : Nat} (h : ¬ Fits fd n) :
    frmSel fd n = .error (.malformedMessage .payloadTooLong) := by
  rcases frmSel_cases fd n with ⟨h', e⟩ | ⟨h1, h2, h3, e⟩ | ⟨h', e⟩
  · exact absurd (.inl h') h
  · exact absurd (.inr ⟨h2, h3⟩) h
  · exact e

/-- What the builder does with a message whose tags match and whose body fits (R83). -/
theorem frmBuild_ok {P : Params} {fd : Bool} {m : Message} (hw : m.wellFormed = true) (ht : TagsFitFor P m)
    (hf : Fits fd (m.payload ++ m.tags.flatten).length) :
    ∃ v, encodeAid m.aid = .ok v ∧ v.toNat = aidNumber m.aid ∧ aidDecode v = m.aid ∧
      frmBuild P fd m = .ok (layFrame P (if (m.payload ++ m.tags.flatten).length ≤ 8 then .classic else .fd)
        (identBuild v) (m.payload ++ m.tags.flatten)) := by
  obtain ⟨v, h1, h2, h3⟩ := encodeAid_ok hw
  refine ⟨v, h1, h2, h3, ?_⟩
  rw [frmBuild, if_pos ((tagsMatch_iff P m).2 ht)]
  simp only [frmSel_fit hf, h1]

/-- What a message the builder accepts is, and what the buffer is. -/
theorem frmBuild_eq_ok {P : Params} {fd : Bool} {m : Message} {buf : List Byte} (h : frmBuild P fd m = .ok buf) :
    TagsFitFor P m ∧ m.wellFormed = true ∧ ∃ (k : FrameKind) (v : V29), aidDecode v = m.aid ∧
      (m.payload ++ m.tags.flatten).length ≤ k.cap ∧
      buf = layFrame P k (identBuild v) (m.payload ++ m.tags.flatten) := by
  unfold frmBuild at h
  split at h
  · rename_i ht
    refine ⟨(tagsMatch_iff P m).1 ht, ?_⟩
    simp only at h
    split at h
    · cases h
    · rename_i k hk
      split at h
      · cases h
      · rename_i v hv
        cases h
        have hwf : m.wellFormed = true := by
          unfold encodeAid aidEncode at hv
          split at hv
          · rename_i hh
            have := ((aidValid_iff _ _ _).1 hh).2.2.1
            simpa [Message.wellFormed, ArbId.wellFormed] using this
          · cases hv
        obtain ⟨v', e1, e2, e3⟩ := encodeAid_ok (aid := m.aid) hwf
        rw [hv] at e1
        cases e1
        exact ⟨hwf, k, v, e3, (frmSel_fits hk).1, rfl⟩
  · cases h

theorem length_flatten_tags (P : Params) {tags : List (List Byte)} (h : ∀ t ∈ tags, t.length = P.tagLen) :
    tags.flatten.length = tags.length * P.tagLen := by
  rw [List.length_flatten, List.eq_replicate_of_mem (a := P.tagLen) (l := tags.map List.length) (by simpa using h)]
  simp

/-- R52: splitting a body that was joined. -/
theorem splitBody_append (P : Params) (payload : List Byte) (tags : List (List Byte))
    (h : ∀ t ∈ tags, t.length = P.tagLen) : splitBody P tags.length (payload ++ tags.flatten) = (payload, tags) := by
  have hd : (payload ++ tags.flatten).length - tags.length * P.tagLen = payload.length := by
    rw [List.length_append, length_flatten_tags P h]
    omega
  simp only [splitBody, hd, List.take_left, List.drop_left]
  congr 1
  clear hd
  refine List.ext_getElem (by simp) fun i h1 h2 => ?_
  simp only [List.getElem_map, List.getElem_range, tagAt]
  induction tags generalizing i with
  | nil => simp at h2
  | cons t ts ih =>
    have ht := h t (by simp)
    cases i with
    | zero => simp [ht]
    | succ i =>
      have := ih (fun t ht => h t (by simp [ht])) i (by simpa using h1) (by simpa using h2)
      simp only [List.flatten_cons, List.getElem_cons_succ]
      rw [← this, Nat.add_mul, Nat.one_mul, Nat.add_comm, ← List.drop_drop, ← ht, List.drop_left]

/-- The parser on a laid-out frame. -/
theorem frmParse_layFrame {P : Params} {k : FrameKind} {v : V29} {m : Message} {ts : Timestamp}
    (hv : aidDecode v = m.aid) (ht : TagsFitFor P m) (hl : (m.payload ++ m.tags.flatten).length ≤ k.cap) :
    frmParse P ts (layFrame P k (identBuild v) (m.payload ++ m.tags.flatten)) =
      .ok { m with timestamp := ts, accepted := false } := by
  have hfl := length_flatten_tags P ht.2
  have h256 : (m.payload ++ m.tags.flatten).length < 256 := by
    cases k <;> simp only [FrameKind.cap, classicCap, fdCap] at hl <;> omega
  have hb : (BitVec.ofNat 8 (m.payload ++ m.tags.flatten).length).toNat = (m.payload ++ m.tags.flatten).length := by
    rw [BitVec.toNat_ofNat]
    exact Nat.mod_eq_of_lt h256
  simp only [frmParse, kindOfSize_layFrame P k _ _ hl, frameView_layFrame P k _ _ hl, identParse_identBuild,
    hv, hb]
  rw [if_neg (by rw [List.length_append, hfl, ht.1]; omega), ← ht.1, splitBody_append P _ _ ht.2]

/-! ### Sets, tags and the claim -/

/-- R19: a bit of the set says whether the address occurs. -/
theorem getLsbD_addrSet (ds : List Addr) (i : Nat) (hi : i < 64) :
    (addrSet ds).getLsbD i = decide (BitVec.ofNat 6 i ∈ ds) := by
  induction ds with
  | nil => simp [addrSet]
  | cons a ds ih =>
    have ha := a.isLt
    simp only [addrSet, BitVec.getLsbD_or, ih, List.mem_cons, Bool.decide_or, BitVec.getLsbD_shiftLeft]
    congr 1
    by_cases h : BitVec.ofNat 6 i = a
    · subst h
      simp only [BitVec.toNat_ofNat, Nat.mod_eq_of_lt (show i < 2 ^ 6 by omega)]
      simp [hi]
    · have : i ≠ a.toNat := by
        rintro rfl
        exact h (by simp)
      simp only [h, decide_false, hi, decide_true, Bool.true_and, BitVec.getLsbD_one]
      by_cases h2 : i < a.toNat
      · simp [h2]
      · simp [h2]
        omega

theorem mem_addrMembers (m : AddrSet) (a : Nat) : a ∈ addrMembers m ↔ a < 64 ∧ m.getLsbD a = true := by
  simp [addrMembers]

/-- The first position of an address. -/
theorem idxOf_eq_some (a : Addr) (ds : List Addr) (i : Nat) :
    ds.idxOf? a = some i ↔ ds[i]? = some a ∧ ∀ j, j < i → ds[j]? ≠ some a := by
  induction ds generalizing i with
  | nil => simp
  | cons d ds ih =>
    rw [List.idxOf?_cons]
    by_cases h : d = a
    · subst h
      simp only [beq_self_eq_true, if_true]
      cases i with
      | zero => simp
      | succ i =>
        simp only [Option.some.injEq, List.getElem?_cons_succ]
        exact ⟨fun h => by omega, fun h => absurd rfl (h.2 0 (by omega))⟩
    · simp only [beq_iff_eq, h, if_false]
      cases i with
      | zero => simp [h]
      | succ i =>
        simp only [Option.map_eq_some_iff, Nat.add_right_cancel_iff, exists_eq_right, List.getElem?_cons_succ, ih]
        refine and_congr_right fun _ => ⟨fun hh j hj => ?_, fun hh j hj => ?_⟩
        · cases j with
          | zero => simpa using h
          | succ j => simpa using hh j (by omega)
        · simpa using hh (j + 1) (by omega)

/-- What authentication at a Node is (R121, R125). -/
theorem carriesTag_iff (P : Params) (a : Addr) (n : Node) (m : Message) :
    CarriesTagFor P a n.key m ↔ authentic P a n m = true := by
  unfold CarriesTagFor authentic tagFor
  constructor
  · rintro ⟨i, h1, h2, h3⟩
    rw [(idxOf_eq_some a _ i).2 ⟨h1, h2⟩]
    simp only [h3]
    exact (macVerify_iff _ _ _ _).2 rfl
  · intro h
    cases hi : m.aid.dests.idxOf? a with
    | none => simp [hi] at h
    | some i =>
      simp only [hi] at h
      cases ht : m.tags[i]? with
      | none => simp [ht] at h
      | some t =>
        simp only [ht] at h
        obtain ⟨e1, e2⟩ := (idxOf_eq_some a _ i).1 hi
        exact ⟨i, e1, e2, by rw [ht, (macVerify_iff _ _ _ _).1 h]⟩

/-- The search for a free address, from a number below which all are claimed. -/
theorem claimFrom_spec (claimed : List Nat) (fuel n : Nat) (h : ∀ k, k < n → k ∈ claimed) :
    (∀ k, k < claimFrom claimed fuel n → k ∈ claimed) ∧
    (claimFrom claimed fuel n ∉ claimed ∨ claimFrom claimed fuel n = n + fuel) := by
  induction fuel generalizing n with
  | zero => exact ⟨h, .inr rfl⟩
  | succ f ih =>
    unfold claimFrom
    split
    · rename_i hm
      have := ih (n + 1) fun k hk => by
        rcases Nat.lt_succ_iff_lt_or_eq.1 hk with hk | rfl
        · exact h k hk
        · simpa using hm
      exact ⟨this.1, this.2.imp id fun h => by omega⟩
    · rename_i hm
      exact ⟨h, .inl (by simpa using hm)⟩

/-- The claimed address is free: a list has room for no more members than its length. -/
theorem claim_free (claimed : List Nat) : claim claimed ∉ claimed := by
  obtain ⟨h1, h2 | h2⟩ := claimFrom_spec claimed claimed.length 0 (by simp)
  · exact h2
  · intro hm
    have hc : claim claimed = claimed.length := by
      unfold claim
      omega
    have : (List.range (claimed.length + 1)).Subperm claimed := by
      refine List.Nodup.subperm List.nodup_range fun k hk => ?_
      rcases Nat.lt_succ_iff_lt_or_eq.1 (List.mem_range.1 hk) with hk | rfl
      · exact h1 k (by rw [show claimFrom claimed claimed.length 0 = claimed.length from hc]; exact hk)
      · rwa [hc] at hm
    have := this.length_le
    simp at this

end Sys2Proof.Machine
end

