-- ==== Sys2Proof/Laws/PerInstr.lean ====
section
/-!
SUPPORT. A law stated per instruction: the encoder writes the instruction's own code or format, as
spec/opcode_table.json gives it (R56; R45, R48, R50, R51).
-/

namespace Sys2Proof.Laws.TableCode

open Sys2Proof

/-- The code of R56 in the first byte of a command, or the format of a data encoding. -/
def expected : Instr → Format × Option Byte
  | .aidEnc _ _ _ => (.cmd8, some 0x01)
  | .aidDec _ => (.cmd8, some 0x02)
  | .frmSel _ => (.cmd8, some 0x10)
  | .frmBuild _ => (.cmd8, some 0x11)
  | .frmParse _ => (.cmd8, some 0x12)
  | .keyDerive _ => (.cmd8, some 0x20)
  | .macTag _ _ => (.cmd8, some 0x21)
  | .macVerify _ _ _ => (.cmd8, some 0x22)
  | .rptEntry _ _ _ => (.cmd8, some 0x30)
  | .rptRecord _ _ _ _ => (.cmd8, some 0x31)
  | .rptCurrent _ _ _ => (.cmd8, some 0x32)
  | .nodeVerify _ _ => (.cmd8, some 0x40)
  | .msgNew _ _ _ _ _ => (.cmd8, some 0x50)
  | .linkConstruct _ => (.cmd8, some 0x51)
  | .linkClaim _ => (.cmd8, some 0x52)
  | .linkResolve _ => (.cmd8, some 0x53)
  | .linkSend _ => (.cmd8, some 0x54)
  | .linkRecv _ => (.cmd8, some 0x55)
  | .arbid _ => (.v29, none)
  | .identBuild _ => (.identWritten, none)
  | .identParse _ => (.identRead, none)
  | .frameClassic _ => (.buf16, none)
  | .frameFd _ => (.buf72, none)

/-- The encoder's transfer has the expected format and, for a command, starts with the expected code. -/
def Statement (i : Instr) : Prop :=
  (encode i).format = (expected i).1 ∧ ∀ c, (expected i).2 = some c → (encode i).bytes.head? = some c

theorem aidEnc (priority source : Nat) (dests : List Nat) : Statement (.aidEnc priority source dests) :=
  ⟨rfl, fun _ h => h⟩

theorem aidDec (v29 : V29) : Statement (.aidDec v29) :=
  ⟨rfl, fun _ h => h⟩

theorem frmSel (n : Nat) : Statement (.frmSel n) :=
  ⟨rfl, fun _ h => h⟩

theorem frmBuild (m : Message) : Statement (.frmBuild m) :=
  ⟨rfl, fun _ h => h⟩

theorem frmParse (buf : List Byte) : Statement (.frmParse buf) :=
  ⟨rfl, fun _ h => h⟩

theorem keyDerive (a : Addr) : Statement (.keyDerive a) :=
  ⟨rfl, fun _ h => h⟩

theorem macTag (key payload : List Byte) : Statement (.macTag key payload) :=
  ⟨rfl, fun _ h => h⟩

theorem macVerify (key payload tag : List Byte) : Statement (.macVerify key payload tag) :=
  ⟨rfl, fun _ h => h⟩

theorem rptEntry (a src : Addr) (dests : List Addr) : Statement (.rptEntry a src dests) :=
  ⟨rfl, fun _ h => h⟩

theorem rptRecord (a src : Addr) (dests : List Addr) (c : Nat) : Statement (.rptRecord a src dests c) :=
  ⟨rfl, fun _ h => h⟩

theorem rptCurrent (a src : Addr) (dests : List Addr) : Statement (.rptCurrent a src dests) :=
  ⟨rfl, fun _ h => h⟩

theorem nodeVerify (a : Addr) (m : Message) : Statement (.nodeVerify a m) :=
  ⟨rfl, fun _ h => h⟩

theorem msgNew (timestamp : Timestamp) (priority source : Nat) (dests payload : List Nat) : Statement (.msgNew timestamp priority source dests payload) :=
  ⟨rfl, fun _ h => h⟩

theorem linkConstruct (cfg : LinkCfg) : Statement (.linkConstruct cfg) :=
  ⟨rfl, fun _ h => h⟩

theorem linkClaim (claimed : List Nat) : Statement (.linkClaim claimed) :=
  ⟨rfl, fun _ h => h⟩

theorem linkResolve (d : Addr) : Statement (.linkResolve d) :=
  ⟨rfl, fun _ h => h⟩

theorem linkSend (m : Message) : Statement (.linkSend m) :=
  ⟨rfl, fun _ h => h⟩

theorem linkRecv (t : Timeout) : Statement (.linkRecv t) :=
  ⟨rfl, fun _ h => h⟩

theorem arbid (v29 : V29) : Statement (.arbid v29) :=
  ⟨rfl, fun _ h => nomatch h⟩

theorem identBuild (v29 : V29) : Statement (.identBuild v29) :=
  ⟨rfl, fun _ h => nomatch h⟩

theorem identParse (ident : Ident) : Statement (.identParse ident) :=
  ⟨rfl, fun _ h => nomatch h⟩

theorem frameClassic (buf : List Byte) : Statement (.frameClassic buf) :=
  ⟨rfl, fun _ h => nomatch h⟩

theorem frameFd (buf : List Byte) : Statement (.frameFd buf) :=
  ⟨rfl, fun _ h => nomatch h⟩

end Sys2Proof.Laws.TableCode
end

