-- ==== Sys2Proof/Tests/Slice0.lean ====
section
/-!
SUPPORT. Tests: ill-formed terms, words written out from spec/30_encoding.md, vectors of spec/95_test_vectors.md
(one command each, most under its parameter set P_TOY), and a witness for the hypotheses of every statement.
-/

open Sys2Proof Sys2Proof.Machine

namespace Sys2Proof.Tests

/-! ### Well-formedness: one ill-formed term for each check -/

def aidOf (priority source : Nat) (dests : List Nat) : ArbId :=
  { priority := BitVec.ofNat 3 priority, source := BitVec.ofNat 6 source, dests := dests.map (BitVec.ofNat 6) }

def message (aid : ArbId) (payload : List Byte) (tags : List (List Byte)) : Message :=
  { timestamp := 0, aid := aid, payload := payload, tags := tags, accepted := false }

/-- R22: four destinations. -/
def fourDests : Message := message (aidOf 5 0 [1, 2, 3, 4]) [] []

theorem test_wf_frmBuild : WellFormed (.frmBuild fourDests) = false := by decide
theorem test_wf_nodeVerify : WellFormed (.nodeVerify 1 fourDests) = false := by decide
theorem test_wf_linkSend : WellFormed (.linkSend fourDests) = false := by decide
theorem test_wf_frameClassic : WellFormed (.frameClassic (List.replicate 15 0)) = false := by decide
theorem test_wf_frameFd : WellFormed (.frameFd (List.replicate 73 0)) = false := by decide
theorem test_wf_threeDests : WellFormed (.linkSend (message (aidOf 5 0 [1, 2, 3]) [] [])) = true := by decide

/-! ### Decoding: a word per constructor. Codes and data words in the bits of R56, R45, R48, R50, R51; operands after
the code in the layout of log entry 2. -/

def cmd (code : Byte) (operands : List Byte) : Except DecodeError Instr :=
  decode { format := .cmd8, bytes := code :: operands }

theorem test_decode_aidEnc : cmd 0b00000001 [5, 0, 1, 1] = .ok (.aidEnc 5 0 [1]) := by decide
theorem test_decode_aidDec :
    cmd 0b00000010 [0x80, 0xA0, 0x90, 0xA0, 0x01] = .ok (.aidDec 0x14041000#29) := by decide
theorem test_decode_frmSel : cmd 0b00010000 [0xAC, 0x02] = .ok (.frmSel 300) := by decide
theorem test_decode_frmBuild :
    cmd 0b00010001 [7, 5, 0, 1, 1, 3, 0x00, 0xF5, 0x86, 1, 2, 0xA1, 0xB2, 0] = .ok (.frmBuild
      { timestamp := 7, aid := { priority := 5, source := 0, dests := [1] }, payload := [0x00, 0xF5, 0x86],
        tags := [[0xA1, 0xB2]], accepted := false }) := by decide
theorem test_decode_frmParse : cmd 0b00010010 [2, 0xFF, 0x00] = .ok (.frmParse [0xFF, 0x00]) := by decide
theorem test_decode_keyDerive : cmd 0b00100000 [63] = .ok (.keyDerive 63) := by decide
theorem test_decode_macTag : cmd 0b00100001 [1, 0x01, 2, 0x05, 0xAA] = .ok (.macTag [0x01] [0x05, 0xAA]) := by decide
theorem test_decode_macVerify :
    cmd 0b00100010 [1, 0x01, 1, 0x05, 2, 0x28, 0x46] = .ok (.macVerify [0x01] [0x05] [0x28, 0x46]) := by decide
theorem test_decode_rptEntry : cmd 0b00110000 [1, 0, 2, 2, 3] = .ok (.rptEntry 1 0 [2, 3]) := by decide
theorem test_decode_rptRecord : cmd 0b00110001 [1, 0, 1, 2, 7] = .ok (.rptRecord 1 0 [2] 7) := by decide
theorem test_decode_rptCurrent : cmd 0b00110010 [9, 4, 0] = .ok (.rptCurrent 9 4 []) := by decide
theorem test_decode_nodeVerify :
    cmd 0b01000000 [9, 0, 5, 3, 1, 1, 1, 0x04, 0, 1] = .ok (.nodeVerify 9
      { timestamp := 0, aid := { priority := 5, source := 3, dests := [1] }, payload := [0x04], tags := [],
        accepted := true }) := by decide
theorem test_decode_msgNew :
    cmd 0b01010000 [0, 8, 64, 1, 1, 2, 0, 0x80, 0x02] = .ok (.msgNew 0 8 64 [1] [0, 256]) := by decide
theorem test_decode_linkConstruct :
    cmd 0b01010001 [3, 0, 1, 5] = .ok (.linkConstruct
      { channel := 3, receiveOwn := false, fdEnabled := true, claimed := 5 }) := by decide
theorem test_decode_linkClaim : cmd 0b01010010 [2, 0, 2] = .ok (.linkClaim [0, 2]) := by decide
theorem test_decode_linkResolve : cmd 0b01010011 [7] = .ok (.linkResolve 7) := by decide
theorem test_decode_linkSend :
    cmd 0b01010100 [0, 0, 0, 0, 1, 0x07, 0, 0] = .ok (.linkSend (message (aidOf 0 0 []) [0x07] [])) := by decide
theorem test_decode_linkRecv : cmd 0b01010101 [0x80, 0x01] = .ok (.linkRecv 128) := by decide

/-- R45: priority 101, source 000000, quantity 01, destinations 000001, 000000, 000000 (vector S1). -/
theorem test_decode_arbid :
    decodeTableWord 29 0b10100000001000001000000000000 = some (.arbid 0x14041000#29) := by decide
/-- R48: 100 above the same 29 bits. -/
theorem test_decode_identBuild :
    decodeTableWord 32 0b10010100000001000001000000000000 = some (.identBuild 0x14041000#29) := by decide
/-- R48: any 32 bits, here 011 above the same 29 bits. -/
theorem test_decode_identParse :
    decodeTableWord 32 0b01110100000001000001000000000000 = some (.identParse 0x74041000#32) := by decide
/-- R50: ident, length, padding, data. -/
theorem test_decode_frameClassic :
    decodeTableWord 128 (0x94041000 + 5 * 2 ^ 32 + 0x86F500 * 2 ^ 64) = some (.frameClassic
      [0x00, 0x10, 0x04, 0x94, 0x05, 0, 0, 0, 0x00, 0xF5, 0x86, 0, 0, 0, 0, 0]) := by decide
/-- R51: ident, length, flags, reserved, data. -/
theorem test_decode_frameFd :
    decodeTableWord 576 (0x94041000 + 9 * 2 ^ 32 + 4 * 2 ^ 40 + 0xFF * 2 ^ 568) = some (.frameFd
      ([0x00, 0x10, 0x04, 0x94, 0x09, 0x04, 0, 0] ++ List.replicate 63 0 ++ [0xFF])) := by decide +kernel

/-- R56: each of the 18 codes alone, with zero operands, is a command; a neighbour of each group is none. -/
theorem test_decode_codes : (commandCodes.map fun c => (decodeTableWord 8 c.toNat).isSome) = List.replicate 18 true ∧
    ([0x00, 0x03, 0x0F, 0x13, 0x23, 0x33, 0x41, 0x4F, 0x56, 0xFF].map fun w => decodeTableWord 8 w) =
      List.replicate 10 none := by decide

/-- R40: bytes that are not one whole command are rejected by name. -/
theorem test_decode_rejects :
    cmd 0x02 [] = .error .truncated ∧ cmd 0x10 [5, 0] = .error .trailing ∧ cmd 0x10 [0x80, 0x00] = .error .nonMinimal ∧
    cmd 0x20 [64] = .error .operandRange ∧ cmd 0x54 [0, 0, 0, 4, 1, 2, 3, 4, 0, 0, 0] = .error .illFormed ∧
    decode { format := .cmd8, bytes := [] } = .error .noCode ∧
    decode { format := .v29, bytes := [0, 0, 0, 0x20] } = .error .fixedBits ∧
    decode { format := .buf16, bytes := [] } = .error .wrongSize := by decide

/-! ### The parameter set P_TOY of spec/95_test_vectors.md section 1 -/

def toySum (key bytes : List Byte) : Nat × Nat :=
  let ks := (key.map BitVec.toNat).sum % 256
  (ks + (bytes.map BitVec.toNat).sum, 5 * ks + (bytes.zipIdx.map fun e => (e.2 + 1) * e.1.toNat).sum)

def toy : Params where
  tagLen := 2
  digestLen := 4
  mac := fun key bytes =>
    [BitVec.ofNat 8 bytes.length, BitVec.ofNat 8 (key.map BitVec.toNat).sum, BitVec.ofNat 8 (toySum key bytes).1,
      BitVec.ofNat 8 (toySum key bytes).2]
  keyProv := fun a => [a.setWidth 8]
  hex := hexLower
  ctrIndex := 0
  idByteOrder := .little
  tagLen_pos := by decide
  tagLen_le := by decide
  mac_length := fun _ _ => rfl

/-- A link as the vectors start it: constructed, LOCAL 1, Node 1 with key `[01]` and the given table. -/
def link (rpt : ReplayTable) : State :=
  { State.reset with
    constructed := true
    cfg := { channel := 0, receiveOwn := false, fdEnabled := true, claimed := 5 }
    localAddr := 1
    reg := [(1, { address := 1, key := [1], rpt := rpt })]
    th := 7 }

/-- The message of programs P1 and P2, with the given tags. -/
def m1 (source : Nat) (tags : List (List Byte)) : Message := message (aidOf 5 source [1]) [0x00, 0xF5, 0x86] tags

/-- The answer of an outcome. -/
def answerOf (o : Host.Outcome State Fault Refusal) : Option Response :=
  match o with
  | .next t => t.response
  | .fault _ => none
  | .refused _ => none

/-- The state an outcome goes on in. -/
def afterOf (o : Host.Outcome State Fault Refusal) : Option State :=
  match o with
  | .next t => some t
  | .fault _ => none
  | .refused _ => none

/-! ### Vectors: arbitration ids (section 3.1) -/

theorem test_aidEnc_order : answerOf (execAidEnc 3 10 [2, 1] State.reset) = some (.v29 0x0CA82040) := by decide
theorem test_aidEnc_bad :
    answerOf (execAidEnc 0 0 [1, 2, 64] State.reset) =
      some (.error (.malformedMessage .badArbitrationId)) := by decide
theorem test_aidDec_unused_slots :
    answerOf (execAidDec 0x00080041 State.reset) = some (.arbId (aidOf 0 0 [0, 1])) := by decide
theorem test_aidDec_all_ones :
    answerOf (execAidDec 0x1FFFFFFF State.reset) = some (.arbId (aidOf 7 63 [63, 63, 63])) := by decide
theorem test_arbid_fields :
    answerOf (execArbid 0x0A17F041 State.reset) =
      some (.fields { p := 2, s := 33, q := 1, d0 := 63, d1 := 1, d2 := 1 }) := by decide

/-! ### Vectors: frames (section 3.2) -/

theorem test_identBuild : answerOf (execIdentBuild 0x14041000 State.reset) = some (.ident 0x94041000) := by decide
theorem test_identParse_masks : answerOf (execIdentParse 0xF4041FFF State.reset) = some (.v29 0x14041FFF) := by decide

theorem test_frmSel_64 : answerOf (execFrmSel 64 (link [])) = some (.kind .fd) := by decide
theorem test_frmSel_65 :
    answerOf (execFrmSel 65 (link [])) = some (.error (.malformedMessage .payloadTooLong)) := by decide

theorem test_frmBuild_classic : (frmBuildCmd toy (m1 0 [[0xA1, 0xB2]]) (link [])).response = some (.buffer
    [0x00, 0x10, 0x04, 0x94, 0x05, 0, 0, 0, 0x00, 0xF5, 0x86, 0xA1, 0xB2, 0, 0, 0]) := by decide
theorem test_frmBuild_short_tag : (frmBuildCmd toy (m1 0 [[0xA1, 0xB2, 0xC3]]) (link [])).response =
    some (.error (.malformedMessage .badTags)) := by decide

/-- Bits 31:29, padding and fill are ignored (R54). -/
theorem test_frmParse_ignores : frmParse toy 0
    [0x00, 0x10, 0x04, 0x74, 0x05, 0xFF, 0xFF, 0xFF, 0x00, 0xF5, 0x86, 0xA1, 0xB2, 0xEE, 0xEE, 0xEE] =
    .ok (m1 0 [[0xA1, 0xB2]]) := by decide
theorem test_frmParse_three_tags : frmParse toy 0
    [0x05, 0x31, 0x2C, 0x84, 0x06, 0, 0, 0, 0x11, 0x12, 0x21, 0x22, 0x31, 0x32, 0, 0] =
    .ok (message (aidOf 1 2 [3, 4, 5]) [] [[0x11, 0x12], [0x21, 0x22], [0x31, 0x32]]) := by decide

theorem test_frameClassic_view : answerOf (execFrameClassic
    [0x00, 0x10, 0x04, 0x94, 0x02, 0xFF, 0xFF, 0xFF, 0xA1, 0xB2, 0xEE, 0, 0, 0, 0, 0] State.reset) =
    some (.view { ident := 0x94041000, length := 2, body := [0xA1, 0xB2] }) := by decide
theorem test_frameFd_too_long : answerOf (execFrameFd ([0x00, 0x10, 0x04, 0x94, 0x41] ++ List.replicate 67 0)
    State.reset) = some (.error (.malformedFrame .badLength)) := by decide

/-! ### Vectors: keys and tags (section 3.3) -/

theorem test_toy_key : toy.keyProv 63 = [0x3F] := by decide
theorem test_keyDerive : answerOf (execKeyDerive 63 State.reset) = some (.key (params.keyProv 63)) := rfl
theorem test_macTag : macTag toy [0x01] [0x00, 0xF5, 0x86] = [0x6A, 0xF7] := by decide
theorem test_macTag_lower_case : macTag toy [0x02] [0x05, 0xAA] = [0x29, 0x4B] := by decide
theorem test_macVerify : macVerify toy [0x01] [0x00, 0xC9, 0x94] [0x6A, 0xF7] = true := by decide
theorem test_macVerify_length : macVerify toy [0x01] [0x00, 0xF5, 0x86] [0x06, 0x01, 0x6A, 0xF7] = false := by decide

/-! ### Vectors: replay tables and verification (sections 3.4, 3.5) -/

/-- The key of channel (source, dests) as a table entry. -/
def entry (source : Nat) (dests : List Addr) (c : Nat) : ChannelKey × Nat :=
  (channelKey (BitVec.ofNat 6 source) dests, c)

theorem test_rptEntry_absent : answerOf (execRptEntry 1 0 [1] (link [])) = some (.entry none) := by decide
theorem test_rptEntry_zero : answerOf (execRptEntry 1 4 [] (link [entry 4 [] 0])) = some (.entry (some 0)) := by decide
theorem test_rptCurrent_set : answerOf (execRptCurrent 1 0 [1, 1, 2] (link [entry 0 [2, 1] 3])) =
    some (.counter 3) := by decide
theorem test_rptCurrent_no_node : answerOf (execRptCurrent 9 0 [1] (link [])) = some (.error .noSuchNode) := by decide
/-- A direct record can lower a counter (R112). -/
theorem test_rptRecord_lowers : afterOf (execRptRecord 1 0 [1] 2 (link [entry 0 [1] 7, entry 0 [1, 2] 3])) =
    some ((link [entry 0 [1] 2, entry 0 [1, 2] 3]).answer .done) := by decide +kernel

theorem test_nodeVerify_order :
    nodeVerifyCmd toy 1 (message (aidOf 5 0 [2, 1]) [0x03, 0x10] [[0xC6, 0xF3], [0xC5, 0xEE]]) (link [entry 0 [1] 5]) =
      (link [entry 0 [1] 5, entry 0 [1, 2] 3]).answer (.verified
        { message (aidOf 5 0 [2, 1]) [0x03, 0x10] [[0xC6, 0xF3], [0xC5, 0xEE]] with accepted := true } .accepted) := by
  decide +kernel
theorem test_nodeVerify_auth_first :
    nodeVerifyCmd toy 1 (message (aidOf 5 0 [1]) [0x00, 0xAA] [[0x00, 0x00]]) (link [entry 0 [1] 5]) =
      (link [entry 0 [1] 5]).answer (.verified
        (message (aidOf 5 0 [1]) [0x00, 0xAA] [[0x00, 0x00]]) .authFailure) := by decide

/-! ### Vectors: the link (sections 3.6, 3.7; programs P1, P2, P5) -/

theorem test_linkClaim_64 : answerOf (execLinkClaim (List.range 64) State.reset) = some (.address 64) := by decide
theorem test_linkClaim_gap : answerOf (execLinkClaim [0, 2] State.reset) = some (.address 1) := by decide

/-- P2 step 1: claimed addresses 0 and 2, the handle 7. -/
theorem test_linkConstruct :
    linkConstructCmd toy { channel := 0, receiveOwn := false, fdEnabled := true, claimed := 5 }
      { State.reset with openIn := [.handle 7] } = (link []).respond .ok (some (.obtain 0 false true)) := by decide
theorem test_linkConstruct_exhausted :
    linkConstructCmd toy { channel := 0, receiveOwn := false, fdEnabled := true, claimed := BitVec.allOnes 64 }
      { State.reset with openIn := [.handle 7] } =
        ({ State.reset with openIn := [.handle 7] }).raise .addressSpaceExhausted none := by decide

theorem test_msgNew_62 : ((msgNew toy true 0 5 0 [1] (List.replicate 62 0)).toOption.isSome,
    msgNew toy true 0 5 0 [1] (List.replicate 63 0)) =
      (true, .error (.malformedMessage .payloadTooLong)) := by decide
theorem test_msgNew_first_check : msgNew toy true 0 8 0 [1] [0, 256] =
    .error (.malformedMessage .badArbitrationId) := by decide

theorem test_linkResolve_inserts : linkResolveCmd toy 7 (link [entry 0 [1] 5]) =
    ((link [entry 0 [1] 5]).withReg ((link [entry 0 [1] 5]).reg ++ [(7, { address := 7, key := [7], rpt := [] })])).answer
      (.node { address := 7, key := [7], rpt := [] }) := by decide

/-- P5 step 12: the source is replaced by LOCAL, the tag appended, the buffer written. -/
theorem test_linkSend : linkSendCmd toy (m1 9 []) { link [] with writeIn := [.written 16] } =
    (link []).respond (.sent (m1 1 [[0x6A, 0xF7]]) 16) (some (.write 7
      [0x00, 0x10, 0x14, 0x94, 0x05, 0, 0, 0, 0x00, 0xF5, 0x86, 0x6A, 0xF7, 0, 0, 0])) := by decide
/-- P5 step 13: a message that carries a tag already. -/
theorem test_linkSend_tagged : linkSendCmd toy (m1 1 [[0x6A, 0xF7]]) (link []) =
    (link []).raise (.malformedMessage .badTags) none := by decide

/-- P2 step 2 as far as the fields the spec fixes: Node 0 appears, the counter is recorded. -/
theorem test_linkRecv_accepts :
    (linkRecvCmd toy 0 { link [] with readIn := [.frame
      [0x00, 0x10, 0x04, 0x94, 0x05, 0, 0, 0, 0x00, 0xF5, 0x86, 0x6A, 0xF7, 0, 0, 0]] }).reg =
      [(0, { address := 0, key := [0], rpt := [] }), (1, { address := 1, key := [1], rpt := [entry 0 [1] 0] })] := by
  decide
/-- P2 step 7: the tag is right for Node 2, which is not the local one. -/
theorem test_linkRecv_foreign :
    (linkRecvCmd toy 0 { link [entry 0 [1] 5] with readIn := [.frame
      [0x00, 0x20, 0x04, 0x94, 0x04, 0, 0, 0, 0x09, 0x01, 0xCC, 0x00, 0, 0, 0, 0]] }).reg =
      [(0, { address := 0, key := [0], rpt := [] }), (1, { address := 1, key := [1], rpt := [entry 0 [1] 5] }),
        (2, { address := 2, key := [2], rpt := [] })] := by decide

/-! ### Other parameters (R27): big-endian identifiers and the counter at index 1, by hand from R35 and R122 -/

theorem test_other_parameters :
    answerOf (execWith { toy with idByteOrder := .big } (.frmBuild (m1 0 [[0xA1, 0xB2]])) (link [])) = some (.buffer
      [0x94, 0x04, 0x10, 0x00, 0x05, 0, 0, 0, 0x00, 0xF5, 0x86, 0xA1, 0xB2, 0, 0, 0]) ∧
    afterOf (execWith { toy with ctrIndex := 1 } (.nodeVerify 1 (m1 0 [[0x6A, 0xF7]])) (link [])) =
      some ((link [entry 0 [1] 0xF5]).answer (.verified
        { m1 0 [[0x6A, 0xF7]] with accepted := true } .accepted)) := by decide +kernel

/-! ### A step from the command port -/

theorem test_step_first : step (State.reset.withFetchWord 8 0b00010000) =
    .next (State.reset.raise .notConstructed none) := by rfl
theorem test_step_unknown : step (State.reset.withFetchWord 8 0x03) = .refused (.unknownCode 0x03) := by rfl

/-! ### Witnesses: a state and operands that meet the hypotheses of each statement, clause by clause -/

/-- The link of the vectors with the machine's own key, so that it meets the invariant. -/
def ownLink (rpt : ReplayTable) : State :=
  { link rpt with reg := [(1, { address := 1, key := params.keyProv 1, rpt := rpt })] }

/-- Its one Node. -/
def ownNode (rpt : ReplayTable) : Node := { address := 1, key := params.keyProv 1, rpt := rpt }

/-- A message to Node 1 with the tag of the machine's own parameters. -/
def tagged (payload : List Byte) : Message :=
  message (aidOf 5 0 [1]) payload [macTag params (params.keyProv 1) payload]

/-- A message without destinations. -/
def plain (payload : List Byte) : Message := message (aidOf 0 0 []) payload []

/-- A 16-byte buffer without destinations, with the given length byte. -/
def buf16 (len : Byte) : List Byte := [0, 0, 0, 0x80, len] ++ List.replicate 11 0

/-- A 72-byte buffer without destinations, with the given length byte. -/
def buf72 (len : Byte) : List Byte := [0, 0, 0, 0x80, len] ++ List.replicate 67 0

/-- A 16-byte buffer of length 0 with one destination. -/
def bufNoTag : List Byte := [0x00, 0x10, 0x04, 0x94] ++ List.replicate 12 0

theorem test_witness_StepRunsTheDecodedCommand : ∃ t rest, (State.reset.withFetchWord 8 0x10).port = t :: rest ∧
    decode t = .ok (.frmSel 0) := ⟨_, _, rfl, by decide⟩

theorem test_witness_StepWithNothingIssuedIsIdle : State.reset.port = [] := rfl

theorem test_witness_CodeOutsideTheTableIsRefused :
    (0x00 : Byte) ∉ commandCodes ∧ (0x03 : Byte) ∉ commandCodes ∧ (0x56 : Byte) ∉ commandCodes ∧
    (State.reset.withFetchWord 8 0x56).port = { format := .cmd8, bytes := [0x56, 0] } :: [] := by decide

theorem test_witness_BrokenTransferStops :
    decode { format := .cmd8, bytes := [0x02] } = .error .truncated ∧
    ∀ code, DecodeError.truncated ≠ .unknownCode code := ⟨by decide, fun _ h => nomatch h⟩

theorem test_witness_EncodedInstructionDecodes : WellFormed (.linkSend (message (aidOf 5 0 [1, 2, 3]) [] [])) = true ∧
    WellFormed (.frameClassic (buf16 0)) = true ∧ WellFormed (.frameFd (buf72 0)) = true := by decide

/-- For `DecodedTransferIsItsEncoding` and `DecodedInstructionIsWellFormed`. -/
theorem test_witness_decode : decode { format := .cmd8, bytes := [0x53, 63] } = .ok (.linkResolve 63) := by decide

/-- For `AidEncPacksTheFields` and `AidDecUndoesAidEnc`: the largest values, and one past each. -/
theorem test_witness_InRange : InRange 7 63 [63, 63, 63] ∧ ¬ InRange 8 0 [] ∧ ¬ InRange 0 64 [] ∧ ¬ InRange 0 0 [64] ∧
    ¬ InRange 0 0 [0, 0, 0, 0] := by decide

theorem test_witness_DecodedQuantityIsTheListLength : ∃ t aid, exec (.aidDec 0x00040FFF) State.reset = .next t ∧
    t.response = some (.arbId aid) := ⟨_, _, rfl, rfl⟩

theorem test_witness_FrameBuffersAnswerTheirView :
    (buf16 8).length = 16 ∧ ((buf16 8).getD 4 0).toNat = 8 ∧ (buf16 9).length = 16 ∧ ((buf16 9).getD 4 0).toNat = 9 ∧
    (buf72 64).length = 72 ∧ ((buf72 64).getD 4 0).toNat = 64 ∧ (buf72 65).length = 72 ∧
    ((buf72 65).getD 4 0).toNat = 65 := by decide

/-- For `FrmSelChoosesTheShape`: 8, 9 and 64, 9 without long frames, 65. -/
theorem test_witness_FrmSelChoosesTheShape :
    (link []).constructed = true ∧ (8 ≤ 8) ∧ (8 < 9 ∧ 64 ≤ 64 ∧ (link []).cfg.fdEnabled = true) ∧
    (8 < 9 ∧ { link [] with cfg := State.reset.cfg }.cfg.fdEnabled = false) ∧ 64 < 65 := by decide

theorem test_witness_FrmBuildLaysOutTheFrame :
    (plain []).wellFormed = true ∧ (link []).constructed = true ∧ ¬ TagsFit (m1 0 []) ∧
    (TagsFit (plain (List.replicate 65 0)) ∧ ¬ Fits true 65) ∧ (TagsFit (plain (List.replicate 9 0)) ∧ ¬ Fits false 9) ∧
    (TagsFit (plain (List.replicate 8 0)) ∧ Fits false 8) ∧ (TagsFit (plain (List.replicate 64 0)) ∧ Fits true 64) := by
  refine ⟨rfl, rfl, fun h => absurd h.1 (by decide), ⟨⟨rfl, fun _ h => nomatch h⟩, by decide⟩,
    ⟨⟨rfl, fun _ h => nomatch h⟩, by decide⟩, ⟨⟨rfl, fun _ h => nomatch h⟩, by decide⟩,
    ⟨⟨rfl, fun _ h => nomatch h⟩, by decide⟩⟩

/-- For `FrmParseSplitsTheFrame`: no size, too long for the shape, too short for one tag, and both capacities. -/
theorem test_witness_FrmParseSplitsTheFrame :
    (([] : List Byte).length ≠ 16 ∧ ([] : List Byte).length ≠ 72) ∧
    ((buf16 9).length = 16 ∧ 8 < ((buf16 9).getD 4 0).toNat) ∧
    (bufNoTag.length = 16 ∧ leNat (bufNoTag.take 4) % 2 ^ 29 / 2 ^ 18 % 4 = 1 ∧
      (bufNoTag.getD 4 0).toNat < 1 * params.tagLen) ∧
    ((buf16 8).length = 16 ∧ ((buf16 8).getD 4 0).toNat ≤ 8 ∧ leNat ((buf16 8).take 4) % 2 ^ 29 / 2 ^ 18 % 4 = 0) ∧
    ((buf72 64).length = 72 ∧ ((buf72 64).getD 4 0).toNat ≤ 64 ∧
      0 * params.tagLen ≤ ((buf72 64).getD 4 0).toNat) := by
  refine ⟨by decide, by decide, ⟨rfl, by decide, ?_⟩, by decide, rfl, by decide, by simp⟩
  rw [Nat.one_mul]
  exact params.tagLen_pos

theorem test_witness_FrmParseUndoesFrmBuild :
    exec (.frmBuild (plain [])) (link []) = .next ((link []).answer (.buffer (buf16 0))) := by rfl

/-- For `FrmParseIgnoresReservedBits`: bits 31:29, unused slots, padding and fill differ. -/
theorem test_witness_FrmParseIgnoresReservedBits :
    let b := [0x00, 0x10, 0x04, 0x94, 0x01, 0, 0, 0, 0xAA, 0, 0, 0, 0, 0, 0, 0]
    let c := [0xFF, 0x1F, 0x04, 0x74, 0x01, 1, 2, 3, 0xAA, 9, 9, 9, 9, 9, 9, 9]
    b ≠ c ∧ b.length = c.length ∧ b.getD 4 0 = c.getD 4 0 ∧
    (b.drop 8).take (b.getD 4 0).toNat = (c.drop 8).take (b.getD 4 0).toNat ∧
    (let q := leNat (b.take 4) / 2 ^ 18 % 4
     leNat (b.take 4) % 2 ^ 29 / 2 ^ (18 - 6 * q) = leNat (c.take 4) % 2 ^ 29 / 2 ^ (18 - 6 * q)) := by decide

theorem test_witness_TagVerifiesUnderItsOwnKey :
    ∃ tag, exec (.macTag [1] [0]) State.reset = .next (State.reset.answer (.tag tag)) := ⟨_, rfl⟩

/-- For `RptEntryReadsTheTable`, `RptCurrentReadsZeroForAbsent`, `RptRecordWritesOneEntry`, `AbsentNodeIsRefused`: no
Node 9; Node 1 without and with an entry. -/
theorem test_witness_tables :
    (link []).constructed = true ∧ (link []).reg.lookup 9 = none ∧
    (∃ n, (link []).reg.lookup 1 = some n ∧ n.rpt.lookup (channelKey 0 [1]) = none) ∧
    (∃ n, (link [entry 0 [1] 7]).reg.lookup 1 = some n ∧ n.rpt.lookup (channelKey 0 [1]) = some 7) :=
  ⟨rfl, rfl, ⟨_, rfl, rfl⟩, ⟨_, rfl, rfl⟩⟩

/-- For `ReadsAfterARecord`: the record, another channel of the Node, another Node. -/
theorem test_witness_ReadsAfterARecord :
    ((link []).reg.lookup 1).isSome = true ∧ (∃ t, exec (.rptRecord 1 0 [1] 7) (link []) = .next t) ∧
    ¬ ((1 : Addr) = 1 ∧ channelKey 0 [1, 2] = channelKey 0 [1]) ∧
    ¬ ((2 : Addr) = 1 ∧ channelKey 0 [1] = channelKey 0 [1]) := ⟨rfl, ⟨_, rfl⟩, by decide, by decide⟩

theorem tagged_carries (payload : List Byte) : CarriesTag 1 (params.keyProv 1) (tagged payload) :=
  ⟨0, rfl, fun _ h => absurd h (Nat.not_lt_zero _), rfl⟩

/-- For `NodeVerifyDecides`: no Node 9; no destination; authentic and empty; authentic with a lower and with the equal counter. -/
theorem test_witness_NodeVerifyDecides :
    (ownLink [entry 0 [1] 5]).constructed = true ∧ (ownLink [entry 0 [1] 5]).reg.lookup 9 = none ∧
    (ownLink [entry 0 [1] 5]).reg.lookup 1 = some (ownNode [entry 0 [1] 5]) ∧
    ¬ CarriesTag 1 (params.keyProv 1) (plain [5]) ∧
    (CarriesTag 1 (params.keyProv 1) (tagged []) ∧ (tagged []).payload = []) ∧
    (CarriesTag 1 (params.keyProv 1) (tagged [4]) ∧
      (4#8).toNat < ((ownNode [entry 0 [1] 5]).rpt.lookup (channelKey 0 [1])).getD 0) ∧
    (CarriesTag 1 (params.keyProv 1) (tagged [5]) ∧
      ((ownNode [entry 0 [1] 5]).rpt.lookup (channelKey 0 [1])).getD 0 ≤ (5#8).toNat) :=
  ⟨rfl, rfl, rfl, fun ⟨i, h, _⟩ => by simp [plain, message, aidOf] at h, ⟨tagged_carries _, rfl⟩,
    ⟨tagged_carries _, by decide⟩, ⟨tagged_carries _, by decide⟩⟩

theorem test_witness_NonDestinationFailsAuthentication :
    ((link []).reg.lookup 1).isSome = true ∧ (1 : Addr) ∉ (plain [5]).aid.dests ∧
    (1 : Addr) ∉ (message (aidOf 5 0 [2]) [5] []).aid.dests := by decide

/-- Verifying an authentic message whose counter is fresh answers `Accepted`. -/
theorem verify_tagged (c : Byte) (rpt : ReplayTable) (h : rpt.current (channelKey 0 [1]) ≤ c.toNat) :
    ∃ t, exec (.nodeVerify 1 (tagged [c])) (ownLink rpt) = .next t ∧
      t.response = some (.verified { tagged [c] with accepted := true } .accepted) := by
  have ha : authentic params 1 (ownNode rpt) (tagged [c]) = true := (carriesTag_iff _ _ _ _).1 (tagged_carries _)
  have hj : judge params 1 (ownNode rpt) (tagged [c]) = .accepted := by
    rw [judge, if_pos ha]
    exact if_pos h
  refine ⟨_, rfl, ?_⟩
  show some (Response.verified (withAccepted _ (judge params 1 (ownNode rpt) (tagged [c])))
    (judge params 1 (ownNode rpt) (tagged [c]))) = _
  rw [hj]
  rfl

theorem test_witness_CounterDoesNotWrap :
    (ownNode [entry 0 [1] 255]).rpt.lookup (channelKey 0 [1]) = some 255 ∧
    ∃ t, exec (.nodeVerify 1 (tagged [255])) (ownLink [entry 0 [1] 255]) = .next t ∧
      t.response = some (.verified { tagged [255] with accepted := true } .accepted) :=
  ⟨rfl, verify_tagged _ _ (by decide)⟩

/-- For `LinkConstructBuildsTheLink`: constructed; all claimed; address 63 the only one free; each answer listed, and
none. -/
theorem test_witness_LinkConstructBuildsTheLink (q : TransportRequest) :
    (link []).constructed = true ∧ State.reset.constructed = false ∧
    (∀ a, a < 64 → (BitVec.allOnes 64).getLsbD a = true) ∧
    (0x7FFFFFFFFFFFFFFF#64).getLsbD 63 = false ∧ (∀ b, b < 63 → (0x7FFFFFFFFFFFFFFF#64).getLsbD b = true) ∧
    { State.reset with openIn := [.handle 7] }.openIn = .handle 7 :: [] ∧
    ({ State.reset with openIn := [.handle 7] }.obtain q).1 = .handle 7 ∧
    ({ State.reset with openIn := [.failure] }.obtain q).1 = .failure ∧ State.reset.openIn = [] :=
  ⟨rfl, rfl, by decide, rfl, by decide, rfl, rfl, rfl, rfl⟩

/-- For `MsgNewChecksAndConstructs`: each check at its boundary. -/
theorem test_witness_MsgNewChecksAndConstructs :
    State.reset.constructed = false ∧ (link []).constructed = true ∧ ¬ InRange 8 0 [] ∧
    (InRange 7 63 [] ∧ ¬ ∀ b ∈ [0, 256], b ≤ 255) ∧
    (InRange 7 63 [] ∧ (∀ b ∈ List.replicate 65 255, b ≤ 255) ∧ 64 < 65 + 0 * params.tagLen) ∧
    (InRange 7 63 [] ∧ (∀ b ∈ List.replicate 64 255, b ≤ 255) ∧ 64 + 0 * params.tagLen ≤ 64) := by
  refine ⟨rfl, rfl, by decide, by decide, ⟨by decide, by decide, by simp⟩, by decide, by decide, by simp⟩

theorem test_witness_LinkResolveInsertsOnFirstSight :
    State.reset.constructed = false ∧ (link []).constructed = true ∧ (∃ n, (link []).reg.lookup 1 = some n) ∧
    (link []).reg.lookup 63 = none :=
  ⟨rfl, rfl, ⟨_, rfl⟩, rfl⟩

theorem test_witness_LinkSendRaises :
    (link []).constructed = true ∧ (m1 0 [[1, 2]]).tags ≠ [] ∧ (plain (List.replicate 65 0)).tags = [] ∧
    ¬ Fits true (65 + 0 * params.tagLen) := by
  refine ⟨rfl, by decide, rfl, ?_⟩
  rw [Nat.zero_mul]
  decide

/-- For `LinkSendTagsBuildsAndWrites`: both answers of the transport listed, and none. -/
theorem test_witness_LinkSendTagsBuildsAndWrites :
    (plain [7]).wellFormed = true ∧ (link []).constructed = true ∧ (plain [7]).tags = [] ∧
    Fits true (1 + 0 * params.tagLen) ∧
    { link [] with writeIn := [.written 16] }.writeIn = .written 16 :: [] ∧
    { link [] with writeIn := [.failure] }.writeIn = .failure :: [] ∧ (link []).writeIn = [] := by
  refine ⟨rfl, rfl, rfl, ?_, rfl, rfl, rfl⟩
  rw [Nat.zero_mul]
  decide

/-- The link with one answer of the transport to a read. -/
def hearing (r : ReadAnswer) : State := { ownLink [] with readIn := [r] }

/-- For `LinkRecvWithoutAMessage`: no answer listed; no frame; a failure; frames of no size, of one byte too many for
each shape, and too short for their tag. -/
theorem test_witness_LinkRecvWithoutAMessage (q : TransportRequest) :
    (hearing .none).constructed = true ∧ (hearing .none).readIn = .none :: [] ∧ (ownLink []).readIn = [] ∧
    ((hearing .none).rxRead q).1 = .none ∧ ((hearing .failure).rxRead q).1 = .failure ∧
    (((hearing (.frame [])).rxRead q).1 = .frame [] ∧ ([] : List Byte).length ≠ 16 ∧ ([] : List Byte).length ≠ 72) ∧
    (((hearing (.frame (buf16 9))).rxRead q).1 = .frame (buf16 9) ∧ (buf16 9).length = 16 ∧ ¬ Parses (buf16 9)) ∧
    ((buf72 65).length = 72 ∧ ¬ Parses (buf72 65)) ∧ (bufNoTag.length = 16 ∧ ¬ Parses bufNoTag) := by
  refine ⟨rfl, rfl, rfl, rfl, rfl, ⟨rfl, by decide, by decide⟩, ⟨rfl, rfl, fun h => absurd h.2.1 (by decide)⟩,
    ⟨rfl, fun h => absurd h.2.1 (by decide)⟩, rfl, fun h => ?_⟩
  have h : 1 * params.tagLen ≤ 0 := h.2.2
  have := params.tagLen_pos
  omega

/-- For `LinkRecvResolvesThenVerifies`: a frame of each shape at its capacity. -/
theorem test_witness_LinkRecvResolvesThenVerifies (q : TransportRequest) :
    (hearing (.frame (buf16 8))).constructed = true ∧
    ((hearing (.frame (buf16 8))).reg.lookup (hearing (.frame (buf16 8))).localAddr).isSome = true ∧
    ((hearing (.frame (buf16 8))).rxRead q).1 = .frame (buf16 8) ∧ Parses (buf16 8) ∧
    ((hearing (.frame (buf72 64))).rxRead q).1 = .frame (buf72 64) ∧ Parses (buf72 64) :=
  ⟨rfl, rfl, rfl, ⟨.inl rfl, by decide, by rw [show leNat _ % _ / _ % _ = 0 from rfl, Nat.zero_mul]; decide⟩,
    rfl, ⟨.inr rfl, by decide, by rw [show leNat _ % _ / _ % _ = 0 from rfl, Nat.zero_mul]; decide⟩⟩

/-- Receiving the 16-byte frame of a message without destinations delivers a message that fails authentication. -/
theorem recv_plain : ∃ t m, exec (.linkRecv 0) (hearing (.frame (buf16 0))) = .next t ∧
    t.response = some (.received m .authFailure) := by
  have h (ts : Timestamp) : frmParse params ts (buf16 0) = .ok { plain [] with timestamp := ts } :=
    frmParse_layFrame (k := .classic) (v := 0) (m := plain []) (by decide) ⟨rfl, fun _ h => nomatch h⟩ (by decide)
  refine ⟨_, { plain [] with
    timestamp := ((hearing (.frame (buf16 0))).rxRead (.read 7 0)).2.drawnTimestamp }, rfl, ?_⟩
  show (linkRecvCmd params 0 (hearing (.frame (buf16 0)))).response = _
  rw [linkRecvCmd, whenConstructed_true rfl]
  show (received params _ _ (.frame (buf16 0))).response = _
  rw [received, h]
  rfl

/-- For `LinkRecvFrame`: an answer that is no message; a delivered message, another channel and an address that stays
absent. -/
theorem test_witness_LinkRecvFrame :
    (∃ t, exec (.linkRecv 0) (hearing .none) = .next t ∧ ∀ m c, t.response ≠ some (.received m c)) ∧
    (∃ n, (hearing .none).reg.lookup (hearing .none).localAddr = some n) ∧
    (∃ t m, exec (.linkRecv 0) (hearing (.frame (buf16 0))) = .next t ∧
      t.response = some (.received m .authFailure)) ∧ Cause.authFailure ≠ .accepted ∧
    (hearing (.frame (buf16 0))).reg.lookup 9 = none ∧ channelKey 9 [1] ≠ channelKey 0 [] :=
  ⟨⟨_, rfl, fun _ _ h => (nomatch h)⟩, ⟨_, rfl⟩, recv_plain, by decide, rfl, by decide⟩

/-- The link of the witnesses meets the invariant. -/
theorem ownLink_inv (readIn : List ReadAnswer) (writeIn : List WriteAnswer) :
    { ownLink [] with readIn := readIn, writeIn := writeIn }.Inv := by
  refine ⟨⟨by simp [ownLink, KMap.wf], fun e he => ?_⟩, fun _ => ⟨_, rfl⟩, fun a n h => ?_, fun h => nomatch h⟩
  · obtain rfl := List.mem_singleton.1 he
    simp [KMap.wf]
  · have h : (if (1 : Addr) = a then some (ownNode []) else none) = some n := h
    split at h
    · rename_i ha
      cases h
      exact ⟨ha, by rw [← ha]; rfl⟩
    · cases h

/-- The link with a transport that takes one buffer. -/
def sending : State := { ownLink [] with writeIn := [.written 16] }

/-- What it sends for a message without destinations and payload: source 1, length 0. -/
def sentBuf : List Byte := [0, 0, 0x10, 0x80] ++ List.replicate 12 0

/-- Sending that message, the transport taking it. -/
theorem send_plain : ∃ t m', exec (.linkSend (plain [])) sending = .next t ∧
    t.response = some (.sent m' 16) ∧ t.request = some (.write 7 sentBuf) := by
  have hsel : frmSel sending.cfg.fdEnabled ((plain []).payload.length + (plain []).aid.dests.length * params.tagLen) =
      .ok .classic := by
    show frmSel true (0 + 0 * params.tagLen) = _
    rw [Nat.zero_mul]
    rfl
  have hb : frmBuild params sending.cfg.fdEnabled (outgoing params sending (plain [])) = .ok sentBuf := by rfl
  have h : linkSendCmd params (plain []) sending =
      transmit (sending.withReg sending.reg) (outgoing params sending (plain [])) sentBuf := by
    rw [linkSendCmd, whenConstructed_true rfl, if_neg (by decide), hsel]
    simp only [hb]
    rfl
  exact ⟨_, outgoing params sending (plain []), congrArg Host.Outcome.next h, rfl, rfl⟩

theorem test_witness_SentMessageIsReceived :
    sending.Inv ∧
    (∃ t m', exec (.linkSend (plain [])) sending = .next t ∧ t.response = some (.sent m' 16) ∧
      t.request = some (.write 7 sentBuf)) ∧
    (hearing (.frame sentBuf)).constructed = true ∧ (hearing (.frame sentBuf)).Inv ∧
    (hearing (.frame sentBuf)).reg.lookup (hearing (.frame sentBuf)).localAddr = some (ownNode []) ∧
    (hearing (.frame sentBuf)).readIn = .frame sentBuf :: [] :=
  ⟨ownLink_inv _ _, send_plain, rfl, ownLink_inv _ _, rfl, rfl⟩

theorem test_witness_StateCommandsNeedConstruction : State.reset.constructed = false ∧ isPure (.frmSel 8) = false ∧
    ∀ cfg, Instr.frmSel 8 ≠ .linkConstruct cfg := ⟨rfl, rfl, fun _ h => nomatch h⟩

/-- For `ReadersKeepTheState` and `PureAnswersIgnoreTheState`: a pure command in two states, a reader. -/
theorem test_witness_readers : isPure (.aidDec 0) = true ∧ isReader (.frmSel 8) = true ∧
    (link []).draws = State.reset.draws ∧ (∃ t, exec (.aidDec 0) (link []) = .next t) ∧
    (∃ t, exec (.aidDec 0) State.reset = .next t) ∧ ∃ t, exec (.frmSel 8) (link []) = .next t :=
  ⟨rfl, rfl, rfl, ⟨_, rfl⟩, ⟨_, rfl⟩, ⟨_, rfl⟩⟩

theorem test_witness_ErrorsWriteNoState : ∃ t, exec (.linkRecv 0) State.reset = .next t ∧
    t.response = some (.error .notConstructed) := ⟨_, rfl, rfl⟩

/-- For the second clause of `ErrorsWriteNoState`: a frame of a wrong size. -/
theorem test_witness_rejected_frame : (hearing (.frame [])).readIn = .frame [] :: [] ∧
    ∃ t, exec (.linkRecv 0) (hearing (.frame [])) = .next t ∧
      t.response = some (.error (.malformedFrame .badSize)) := ⟨rfl, _, rfl, rfl⟩

/-- For `ConstructionIsFinal` and `NodesAreOnlyAdded`: a constructed link resolves an address. -/
theorem test_witness_ConstructionIsFinal : ((ownLink []).withFetchWord 8 0x53).constructed = true ∧
    (∃ t, step ((ownLink []).withFetchWord 8 0x53) = .next t) ∧
    ∃ n, ((ownLink []).withFetchWord 8 0x53).reg.lookup 1 = some n := ⟨rfl, ⟨_, rfl⟩, ⟨_, rfl⟩⟩

theorem test_witness_StepKeepsTheInvariant : (ownLink []).Inv ∧ ∃ t, step (ownLink []) = .next t :=
  ⟨ownLink_inv _ _, ⟨_, rfl⟩⟩

/-- For `CountersNeverDecrease` and `OnlyThreeCommandsWriteTables`: an entry of the Node that a resolve leaves. -/
theorem test_witness_counters : (ownLink [entry 0 [1] 5]).constructed = true ∧ isRecord (.linkResolve 9) = false ∧
    (∃ t, exec (.linkResolve 9) (ownLink [entry 0 [1] 5]) = .next t) ∧
    (ownLink [entry 0 [1] 5]).reg.lookup 1 = some (ownNode [entry 0 [1] 5]) ∧
    (ownNode [entry 0 [1] 5]).rpt.lookup (channelKey 0 [1]) = some 5 ∧
    (∀ b m, Instr.linkResolve 9 = .nodeVerify b m → b ≠ 1) ∧
    (∀ tm, Instr.linkResolve 9 = .linkRecv tm → (ownLink [entry 0 [1] 5]).localAddr ≠ 1) :=
  ⟨rfl, rfl, ⟨_, rfl⟩, rfl, rfl, fun _ _ h => (nomatch h), fun _ h => (nomatch h)⟩

/-- For the third clause of `OutcomeCodes`: an answer that is neither an error nor a verdict nor the transport's. -/
theorem test_witness_OutcomeCodes : (∀ e, Response.done ≠ .error e) ∧ (∀ m c, Response.done ≠ .verified m c) ∧
    (∀ m c, Response.done ≠ .received m c) ∧ Response.done ≠ .transportFailure ∧ Response.done ≠ .noMessage :=
  ⟨fun _ h => (nomatch h), fun _ _ h => (nomatch h), fun _ _ h => (nomatch h), by decide, by decide⟩

/-- The link of Node 0 with a transport that takes one buffer. -/
def sender : State :=
  { link [] with localAddr := 0, reg := [(0, { address := 0, key := [0], rpt := [] })], writeIn := [.written 16] }

/-- The buffer of P2 step 2. -/
def p2Buf : List Byte := [0x00, 0x10, 0x04, 0x94, 0x05, 0, 0, 0, 0x00, 0xF5, 0x86, 0x6A, 0xF7, 0, 0, 0]

/-- The link of Node 1 that reads that buffer. -/
def receiver : State := { link [] with readIn := [.frame p2Buf] }

/-- A registry of one Node with its derived key. -/
theorem toy_keys (a : Addr) (rpt : ReplayTable) :
    KeysFrom toy [(a, { address := a, key := toy.keyProv a, rpt := rpt })] := fun b n h => by
  have h : (if a = b then some ({ address := a, key := toy.keyProv a, rpt := rpt } : Node) else none) = some n := h
  split at h
  · rename_i hb
    cases h
    exact ⟨hb, by rw [← hb]⟩
  · cases h

/-- For `AnySharedParametersDeliver`: P_TOY, Node 0 sends to Node 1, which is a destination. -/
theorem test_witness_AnySharedParametersDeliver :
    KeysFrom toy sender.reg ∧
    (∃ t, execWith toy (.linkSend (m1 0 [])) sender = .next t ∧ t.response = some (.sent (m1 0 [[0x6A, 0xF7]]) 16) ∧
      t.request = some (.write 7 p2Buf)) ∧
    receiver.constructed = true ∧ KeysFrom toy receiver.reg ∧
    receiver.reg.lookup receiver.localAddr = some { address := 1, key := [1], rpt := [] } ∧
    (receiver.rxRead (.read receiver.th 0)).1 = .frame p2Buf ∧ receiver.localAddr ∈ (m1 0 []).aid.dests :=
  ⟨toy_keys 0 [], ⟨_, rfl, by decide, by decide⟩, rfl, toy_keys 1 [], rfl, rfl, by decide⟩

end Sys2Proof.Tests
end

section
/-!
PROOFS. The block's state (10_state.md): what a command can do to the registry, the invariant of R28, the frames of the
commands, and delivery under any parameters.
-/

namespace Sys2Proof.Machine

open Sys2Proof

/-! ### The registry: lookups after resolving and after a verification -/

/-- Resolving leaves an address as it is, or gives an absent one a fresh Node (R135). -/
theorem lookup_resolveAll_cases (P : Params) (reg : Registry) (ds : List Addr) (b : Addr) :
    (reg.resolveAll P ds).lookup b = reg.lookup b ∨
    (reg.lookup b = none ∧ (reg.resolveAll P ds).lookup b = some (freshNode P b)) := by
  rw [lookup_resolveAll]
  split
  · cases h : reg.lookup b with
    | none => exact .inr ⟨rfl, by simp [Registry.nodeFor, h]⟩
    | some n => exact .inl (by simp [Registry.nodeFor, h])
  · exact .inl rfl

/-- A present Node is untouched by resolving. -/
theorem lookup_resolveAll_present (P : Params) {reg : Registry} {b : Addr} {n : Node} (h : reg.lookup b = some n)
    (ds : List Addr) : (reg.resolveAll P ds).lookup b = some n := by
  rcases lookup_resolveAll_cases P reg ds b with e | ⟨e, _⟩
  · rw [e, h]
  · rw [e] at h; cases h

/-- A verification at one Node leaves every other as it is (R18). -/
theorem lookup_registryAfter_other (P : Params) (reg : Registry) {a b : Addr} (hb : b ≠ a) (n : Node) (m : Message) :
    (registryAfter P reg a n m).lookup b = reg.lookup b := by
  rcases registryAfter_cases P reg a n m with ⟨_, e⟩ | ⟨c, _, _, _, e⟩
  · rw [e]
  · rw [e, lookup_recordIn, if_neg hb]

/-- The current counter of an entry that is there is the entry. -/
theorem current_of_lookup {t : ReplayTable} {k : ChannelKey} {c : Nat} (h : t.lookup k = some c) : t.current k = c := by
  rw [ReplayTable.current, h, Option.getD_some]

/-- A verification keeps its Node's address and key, lowers no counter, and writes only the entry of an accepted
message's channel (R121, R124). -/
theorem lookup_registryAfter_self (P : Params) {reg : Registry} {a : Addr} {n : Node} (h : reg.lookup a = some n)
    (m : Message) :
    ∃ n', (registryAfter P reg a n m).lookup a = some n' ∧ n'.address = n.address ∧ n'.key = n.key ∧
      (∀ k c, n.rpt.lookup k = some c → ∃ c', n'.rpt.lookup k = some c' ∧ c ≤ c') ∧
      (∀ k, k ≠ messageChannel m ∨ judge P a n m ≠ .accepted → n'.rpt.lookup k = n.rpt.lookup k) := by
  rcases registryAfter_cases P reg a n m with ⟨_, e⟩ | ⟨c₀, hj, _, hle, e⟩
  · exact ⟨n, by rw [e, h], rfl, rfl, fun k c hc => ⟨c, hc, le_rfl⟩, fun _ _ => rfl⟩
  · refine ⟨{ n with rpt := n.rpt.store (messageChannel m) c₀ }, by rw [e, lookup_recordIn, if_pos rfl], rfl, rfl,
      fun k c hc => ?_, fun k hk => ?_⟩
    · by_cases hk : k = messageChannel m
      · subst hk
        rw [current_of_lookup hc] at hle
        exact ⟨c₀, by rw [lookup_store, if_pos rfl], hle⟩
      · exact ⟨c, by rw [lookup_store, if_neg hk, hc], le_rfl⟩
    · rw [lookup_store, if_neg (hk.resolve_right (not_not_intro hj))]

/-! ### Registries only grow -/

/-- R28 (ii), (iii) of a write to the registry: a present Node stays with its address and key, a Node that appears
stands under its own address with its derived key, and the canonical form is kept (log entry 12). -/
structure Registry.Grows (P : Params) (reg reg' : Registry) : Prop where
  canonical : reg.wf → reg'.wf
  kept : ∀ a n, reg.lookup a = some n → ∃ n', reg'.lookup a = some n' ∧ n'.address = n.address ∧ n'.key = n.key
  added : ∀ a n', reg.lookup a = none → reg'.lookup a = some n' → n'.address = a ∧ n'.key = P.keyProv a

theorem grows_refl (P : Params) (reg : Registry) : reg.Grows P reg :=
  ⟨id, fun _ n h => ⟨n, h, rfl, rfl⟩, fun _ _ h h' => by rw [h] at h'; cases h'⟩

theorem Registry.Grows.trans {P : Params} {r₁ r₂ r₃ : Registry} (h : r₁.Grows P r₂) (h' : r₂.Grows P r₃) :
    r₁.Grows P r₃ where
  canonical hw := h'.canonical (h.canonical hw)
  kept a n hn := by
    obtain ⟨n₂, hn₂, ha₂, hk₂⟩ := h.kept a n hn
    obtain ⟨n₃, hn₃, ha₃, hk₃⟩ := h'.kept a n₂ hn₂
    exact ⟨n₃, hn₃, ha₃.trans ha₂, hk₃.trans hk₂⟩
  added a n₃ hn hn₃ := by
    cases hn₂ : r₂.lookup a with
    | none => exact h'.added a n₃ hn₂ hn₃
    | some n₂ =>
      obtain ⟨ha₂, hk₂⟩ := h.added a n₂ hn hn₂
      obtain ⟨n, hn', ha, hk⟩ := h'.kept a n₂ hn₂
      obtain rfl : n = n₃ := Option.some.inj (hn'.symm.trans hn₃)
      exact ⟨ha.trans ha₂, hk.trans hk₂⟩

theorem grows_resolveAll (P : Params) (reg : Registry) (ds : List Addr) : reg.Grows P (reg.resolveAll P ds) where
  canonical hw := wf_resolveAll P hw ds
  kept _ n h := ⟨n, lookup_resolveAll_present P h ds, rfl, rfl⟩
  added a n' h h' := by
    rcases lookup_resolveAll_cases P reg ds a with e | ⟨_, e⟩ <;> rw [e] at h'
    · rw [h] at h'; cases h'
    · cases h'; exact ⟨rfl, rfl⟩

/-- A record writes the Node back with its address and key. -/
theorem grows_recordIn (P : Params) {reg : Registry} {a : Addr} {n : Node} (h : reg.lookup a = some n) (k : ChannelKey)
    (c : Nat) : reg.Grows P (recordIn reg a n k c) where
  canonical hw := wf_recordIn hw h k c
  kept b n₀ hb := by
    rw [lookup_recordIn]
    split
    · rename_i hba
      obtain rfl : n₀ = n := by rw [hba, h] at hb; cases hb; rfl
      exact ⟨_, rfl, rfl, rfl⟩
    · exact ⟨n₀, hb, rfl, rfl⟩
  added b n' hb hn' := by
    have hne : b ≠ a := by rintro rfl; rw [h] at hb; cases hb
    rw [lookup_recordIn, if_neg hne, hb] at hn'
    cases hn'

theorem grows_registryAfter (P : Params) {reg : Registry} {a : Addr} {n : Node} (h : reg.lookup a = some n)
    (m : Message) : reg.Grows P (registryAfter P reg a n m) := by
  rcases registryAfter_cases P reg a n m with ⟨_, e⟩ | ⟨c, _, _, _, e⟩ <;> rw [e]
  · exact grows_refl P reg
  · exact grows_recordIn P h _ c

/-- Growth keeps the derived keys (R28 (ii)). -/
theorem Registry.Grows.keysFrom {P : Params} {reg reg' : Registry} (h : reg.Grows P reg') (hk : KeysFrom P reg) :
    KeysFrom P reg' := by
  intro a n' hn'
  cases hn : reg.lookup a with
  | none => exact h.added a n' hn hn'
  | some n =>
    obtain ⟨n₀, hn₀, ha, hkey⟩ := h.kept a n hn
    obtain rfl : n₀ = n' := Option.some.inj (hn₀.symm.trans hn')
    exact ⟨ha.trans (hk a n hn).1, hkey.trans (hk a n hn).2⟩

/-- Every command of a constructed link makes the registry grow. -/
theorem exec_grows {i : Instr} {s t : State} (hc : s.constructed = true) (h : exec i s = .next t) :
    s.reg.Grows params t.reg := by
  rcases reg_cases hc h with e | ⟨a, src, ds, c, n, _, hn, e⟩ | ⟨a, m, n, _, hn, e⟩ | ⟨ds, e⟩ |
    ⟨tm, ds, n, m, _, hn, e⟩ <;> rw [e]
  · exact grows_refl params s.reg
  · exact grows_recordIn params hn _ c
  · exact grows_registryAfter params hn m
  · exact grows_resolveAll params s.reg ds
  · exact (grows_resolveAll params s.reg ds).trans (grows_registryAfter params hn m)

/-! ### The invariant -/

theorem block_eq_iff {s t : State} : t.block = s.block ↔
    t.constructed = s.constructed ∧ t.cfg = s.cfg ∧ t.localAddr = s.localAddr ∧ t.reg = s.reg ∧ t.th = s.th := by
  simp only [State.block, Prod.mk.injEq]

/-- A command of a constructed link writes none of the state but the registry (R14, R15, R21). -/
theorem exec_keeps_link {i : Instr} {s t : State} (hc : s.constructed = true) (h : exec i s = .next t) :
    t.constructed = true ∧ t.cfg = s.cfg ∧ t.localAddr = s.localAddr ∧ t.th = s.th := by
  rcases exec_cases h with ⟨hb, _⟩ | ⟨_, _, _, _, _, _, _, _, rfl⟩ | ⟨_, _, _, _, _, _, rfl⟩ |
    ⟨_, _, _, _, hf, _⟩ | ⟨_, _, _, _, _, hf, _⟩ | ⟨_, _, _, rfl⟩ | ⟨_, _, _, _, _, _, rfl⟩ |
    ⟨_, _, _, _, _, rfl | rfl⟩ | ⟨_, _, _, _, _, _, _, rfl⟩
  case inl =>
    obtain ⟨hcon, hcfg, hloc, _, hth⟩ := block_eq_iff.1 hb
    exact ⟨hcon.trans hc, hcfg, hloc, hth⟩
  case inr.inr.inr.inl => rw [hc] at hf; cases hf
  case inr.inr.inr.inr.inl => rw [hc] at hf; cases hf
  all_goals exact ⟨hc, rfl, rfl, rfl⟩

/-- The registry that a construction leaves (R130) has the one fresh Node. -/
theorem lookup_singleton_fresh (P : Params) (a b : Addr) :
    Registry.lookup [(a, freshNode P a)] b = if a = b then some (freshNode P a) else none := rfl

theorem keysFrom_singleton_fresh (P : Params) (a : Addr) : KeysFrom P [(a, freshNode P a)] := by
  intro b n h
  rw [lookup_singleton_fresh] at h
  split at h
  · rename_i hab
    cases h
    exact ⟨hab, congrArg P.keyProv hab⟩
  · cases h

theorem wf_singleton_fresh (P : Params) (a : Addr) : Registry.wf [(a, freshNode P a)] :=
  wf_registryStore (reg := []) ⟨List.Pairwise.nil, fun _ h => nomatch h⟩ a List.Pairwise.nil

/-- The invariant speaks of the block only. -/
theorem inv_of_block {s t : State} (hb : t.block = s.block) (h : s.Inv) : t.Inv := by
  obtain ⟨hcon, _, hloc, hreg, _⟩ := block_eq_iff.1 hb
  unfold State.Inv State.localPresent State.keysDerived State.emptyBefore at *
  rwa [hcon, hloc, hreg]

/-- Construction establishes the invariant, whatever stood before (R28, R130). -/
theorem inv_construct (s : State) (cfg : LinkCfg) (a : Addr) (th : Handle) : (s.construct params cfg a th).Inv :=
  ⟨wf_singleton_fresh params a, fun _ => ⟨_, (lookup_singleton_fresh params a a).trans (if_pos rfl)⟩,
    keysFrom_singleton_fresh params a, fun h => nomatch h⟩

/-- A command before construction writes no state, or constructs. -/
theorem exec_unconstructed_cases {i : Instr} {s t : State} (hc : s.constructed = false) (h : exec i s = .next t) :
    t.block = s.block ∨ ∃ s₀ cfg a th, t.block = (State.construct params s₀ cfg a th).block := by
  rcases exec_cases h with ⟨hb, _⟩ | ⟨_, _, _, _, _, _, ht, _⟩ | ⟨_, _, _, _, ht, _⟩ | ⟨_, _, _, _, _, rfl⟩ |
    ⟨cfg, a, th, q, _, _, rfl⟩ | ⟨_, _, ht, _⟩ | ⟨_, _, _, _, ht, _⟩ | ⟨_, _, _, _, ht, _⟩ | ⟨_, _, _, _, _, ht, _⟩
  case inl => exact .inl hb
  case inr.inr.inr.inl => exact .inl rfl
  case inr.inr.inr.inr.inl => exact .inr ⟨(s.obtain q).2, cfg, a, th, rfl⟩
  all_goals rw [hc] at ht; cases ht

/-- Every command keeps the invariant. -/
theorem exec_keeps_inv {i : Instr} {s t : State} (hs : s.Inv) (h : exec i s = .next t) : t.Inv := by
  cases hc : s.constructed
  · rcases exec_unconstructed_cases hc h with hb | ⟨s₀, cfg, a, th, hb⟩
    · exact inv_of_block hb hs
    · exact inv_of_block hb (inv_construct s₀ cfg a th)
  · obtain ⟨hwf, hlocal, hkeys, _⟩ := hs
    obtain ⟨hcon, _, hloc, _⟩ := exec_keeps_link hc h
    have hgrows := exec_grows hc h
    obtain ⟨n, hn⟩ := hlocal hc
    obtain ⟨n', hn', _⟩ := hgrows.kept _ n hn
    exact ⟨hgrows.canonical hwf, fun _ => ⟨n', hloc ▸ hn'⟩, hgrows.keysFrom hkeys,
      fun hf => by rw [hcon] at hf; cases hf⟩

/-- Settles O52: a step is idle or runs one command on the state with the transfer taken, whose block is the same. -/
theorem stepKeepsTheInvariant : Obligations.StepKeepsTheInvariant := by
  intro s t hs h
  rcases step_cases h with rfl | ⟨i, rest, hi⟩
  · exact hs
  · exact exec_keeps_inv (inv_of_block (withPort_block s rest) hs) hi

/-- Settles O51: the idle step keeps the state, a command keeps the link. -/
theorem constructionIsFinal : Obligations.ConstructionIsFinal := by
  intro s t hc h
  rcases step_cases h with rfl | ⟨i, rest, hi⟩
  · exact ⟨hc, rfl, rfl, rfl⟩
  · exact exec_keeps_link (s := s.withPort rest) hc hi

/-- Settles O55: the idle step keeps the registry, a command makes it grow. -/
theorem nodesAreOnlyAdded : Obligations.NodesAreOnlyAdded := by
  intro s t a n hc h hn
  rcases step_cases h with rfl | ⟨i, rest, hi⟩
  · exact ⟨n, hn, rfl, rfl⟩
  · exact (exec_grows (s := s.withPort rest) hc hi).kept a n hn

/-- Settles O53: at reset the registry is empty and nothing is constructed. -/
theorem resetMeetsTheInvariant : Obligations.ResetMeetsTheInvariant :=
  ⟨⟨List.Pairwise.nil, fun _ h => nomatch h⟩, fun h => (nomatch h), fun _ _ h => (nomatch h), fun _ => rfl⟩

/-- Settles O54: the fields of the reset state. -/
theorem resetIsNotConstructed : Obligations.ResetIsNotConstructed := ⟨rfl, rfl, rfl⟩

/-! ### Replay tables -/

/-- R28 (iv), R116: every entry of a present Node stays, with a counter at least as large. -/
def Registry.CountersRise (reg reg' : Registry) : Prop :=
  ∀ a n k c, reg.lookup a = some n → n.rpt.lookup k = some c →
    ∃ n' c', reg'.lookup a = some n' ∧ n'.rpt.lookup k = some c' ∧ c ≤ c'

theorem countersRise_refl (reg : Registry) : reg.CountersRise reg := fun _ n _ c hn hc => ⟨n, c, hn, hc, le_rfl⟩

theorem countersRise_resolveAll (P : Params) (reg : Registry) (ds : List Addr) :
    reg.CountersRise (reg.resolveAll P ds) :=
  fun _ n _ c hn hc => ⟨n, c, lookup_resolveAll_present P hn ds, hc, le_rfl⟩

theorem countersRise_registryAfter (P : Params) {reg : Registry} {a : Addr} {n : Node} (h : reg.lookup a = some n)
    (m : Message) : reg.CountersRise (registryAfter P reg a n m) := by
  intro b n₀ k c hb hc
  by_cases hba : b = a
  · subst hba
    obtain rfl : n₀ = n := Option.some.inj (hb.symm.trans h)
    obtain ⟨n', hn', _, _, hrise, _⟩ := lookup_registryAfter_self P h m
    obtain ⟨c', hc', hle⟩ := hrise k c hc
    exact ⟨n', c', hn', hc', hle⟩
  · exact ⟨n₀, c, by rw [lookup_registryAfter_other P reg hba, hb], hc, le_rfl⟩

/-- Settles O56: resolving touches no table, and a verification stores only a counter at least the current one. -/
theorem countersNeverDecrease : Obligations.CountersNeverDecrease := by
  intro i s t a n k c hc hrec h hn hk
  suffices s.reg.CountersRise t.reg from this a n k c hn hk
  rcases reg_cases hc h with e | ⟨_, _, _, _, _, rfl, _, _⟩ | ⟨a, m, n, _, hn, e⟩ | ⟨ds, e⟩ | ⟨tm, ds, n, m, _, hn, e⟩
  · exact e ▸ countersRise_refl s.reg
  · cases hrec
  · exact e ▸ countersRise_registryAfter params hn m
  · exact e ▸ countersRise_resolveAll params s.reg ds
  · intro b n₀ k c hb hc
    exact e ▸ countersRise_registryAfter params hn m b n₀ k c (lookup_resolveAll_present params hb ds) hc

/-- Settles O57: resolving keeps every present Node, a verification every Node but its own. -/
theorem onlyThreeCommandsWriteTables : Obligations.OnlyThreeCommandsWriteTables := by
  intro i s t a n hc h hrec hverify hrecv hn
  rcases reg_cases hc h with e | ⟨_, _, _, _, _, rfl, _, _⟩ | ⟨b, m, nb, rfl, _, e⟩ | ⟨ds, e⟩ |
    ⟨tm, ds, nl, m, rfl, _, e⟩
  · rw [e, hn]
  · cases hrec
  · rw [e, lookup_registryAfter_other params _ (hverify b m rfl).symm, hn]
  · rw [e, lookup_resolveAll_present params hn]
  · rw [e, lookup_registryAfter_other params _ (hrecv tm rfl).symm, lookup_resolveAll_present params hn]

/-! ### Commands that write nothing -/

/-- Settles O48: these commands only answer. -/
theorem readersKeepTheState : Obligations.ReadersKeepTheState := by
  intro i s t hi h
  obtain ⟨hblock, hreq, hport, hopen, hwrite, hread, _⟩ := onlyAnswers_exec hi h
  exact ⟨hblock, hreq, hport, hopen, hwrite, hread⟩

theorem reply_response_congr (s s' : State) (r : Except Err Response) :
    (s.reply r).response = (s'.reply r).response := by
  cases r <;> rfl

/-- The one draw of `FRM.PARSE` is its timestamp (R87). -/
theorem frmParseCmd_response_congr (P : Params) (buf : List Byte) {s s' : State} (hd : s.draws = s'.draws) :
    (frmParseCmd P buf s).response = (frmParseCmd P buf s').response := by
  unfold frmParseCmd State.drawnTimestamp
  rw [hd]
  cases frmParse P (Config.timestamp s'.draws) buf <;> rfl

/-- Settles O49: a pure command replies with a term in its operands, and `FRM.PARSE` with one in its draw as well. -/
theorem pureAnswersIgnoreTheState : Obligations.PureAnswersIgnoreTheState := by
  intro i s s' t t' hi hd h h'
  cases i
  case frmParse buf =>
    cases h; cases h'
    exact frmParseCmd_response_congr params buf hd
  case aidEnc | frameClassic | frameFd =>
    cases h; cases h'
    exact reply_response_congr s s' _
  case aidDec | keyDerive | macTag | macVerify | linkClaim | arbid | identBuild | identParse =>
    cases h; cases h'
    rfl
  all_goals cases hi

/-- Settles O47: the refusal is the first test of every command that touches the block's state. -/
theorem stateCommandsNeedConstruction : Obligations.StateCommandsNeedConstruction := by
  intro i s hs hp hlink
  cases i
  case linkConstruct cfg => exact absurd rfl (hlink cfg)
  case frmSel | frmBuild | rptEntry | rptRecord | rptCurrent | nodeVerify | msgNew | linkResolve | linkSend
      | linkRecv =>
    exact congrArg Host.Outcome.next (whenConstructed_false hs _)
  all_goals cases hp

/-! ### The step relation and its parameters -/

/-- Settles O2: nothing is fetched from an empty command port. -/
theorem stepWithNothingIssuedIsIdle : Obligations.StepWithNothingIssuedIsIdle := by
  intro s hp
  rw [step, State.fetch, hp]

/-- Every arm of `exec` is the parametric arm at `params` (R27). -/
theorem exec_eq_execWith : exec = execWith params := by
  funext i s
  cases i <;> rfl

/-- Settles O59: `step` and `stepWith` differ in the command they run only. -/
theorem stepTakesTheParameters : Obligations.StepTakesTheParameters := by
  refine ⟨fun i s => by rw [exec_eq_execWith], fun s => ?_, rfl, rfl, rfl⟩
  unfold stepWith
  rw [← exec_eq_execWith]
  rfl

/-! ### The decoder -/

theorem wellFormed_of_wholeCommand {r : ReadResult Instr} {i : Instr} (h : wholeCommand r = .ok i) :
    WellFormed i = true := by
  obtain ⟨j, rest, _, hj⟩ := andThen_eq_ok h
  split at hj
  · split at hj
    · rename_i hw
      cases hj
      exact hw
    · cases hj
  · cases hj

theorem fixedTop_eq_ok {top : Nat} {bs : List Byte} {mk : V29 → Instr} {i : Instr} (h : fixedTop top bs mk = .ok i) :
    ∃ v, i = mk v := by
  unfold fixedTop at h
  split at h
  · split at h
    · cases h
      exact ⟨_, rfl⟩
    · cases h
  · cases h

/-- Settles O7: a command is checked whole, a data word has its format's size. -/
theorem decodedInstructionIsWellFormed : Obligations.DecodedInstructionIsWellFormed := by
  rintro ⟨format, bytes⟩ i h
  cases format with
  | cmd8 =>
    cases bytes with
    | nil => cases h
    | cons code operands => exact wellFormed_of_wholeCommand h
  | v29 =>
    obtain ⟨v, rfl⟩ := fixedTop_eq_ok h
    rfl
  | identWritten =>
    obtain ⟨v, rfl⟩ := fixedTop_eq_ok h
    rfl
  | identRead =>
    simp only [decode] at h
    split at h <;> cases h
    rfl
  | buf16 =>
    simp only [decode] at h
    split at h <;> cases h
    rename_i hl
    exact beq_iff_eq.2 hl
  | buf72 =>
    simp only [decode] at h
    split at h <;> cases h
    rename_i hl
    exact beq_iff_eq.2 hl

/-! ### What a receive leaves -/

@[simp] theorem withAccepted_aid (m : Message) (c : Cause) : (withAccepted m c).aid = m.aid := rfl
@[simp] theorem rxRead_openIn (s : State) (q : TransportRequest) : (s.rxRead q).2.openIn = s.openIn := rfl
@[simp] theorem rxRead_writeIn (s : State) (q : TransportRequest) : (s.rxRead q).2.writeIn = s.writeIn := rfl

/-- `LINK.RECV` writes none of the state but the registry, and uses up none but its own kind of answer (R18, R140). -/
theorem linkRecv_keeps_link {tm : Timeout} {s t : State} (h : exec (.linkRecv tm) s = .next t) :
    t.constructed = s.constructed ∧ t.cfg = s.cfg ∧ t.localAddr = s.localAddr ∧ t.th = s.th ∧ t.port = s.port ∧
    t.openIn = s.openIn ∧ t.writeIn = s.writeIn := by
  obtain rfl : linkRecvCmd params tm s = t := Host.Outcome.next.inj h
  rcases linkRecvCmd_cases params s tm with ⟨_, e⟩ | ⟨_, _, e⟩ | ⟨_, _, e⟩ | ⟨_, _, _, _, _, e⟩ |
    ⟨_, _, _, _, _, _, e⟩ | ⟨_, _, _, _, _, _, _, e⟩ <;> rw [e] <;> exact ⟨rfl, rfl, rfl, rfl, rfl, rfl, rfl⟩

/-- What `LINK.RECV` does to the registry: nothing, unless it answers a received message, over whose source and
destinations it resolves and at whose channel the local Node may then record (R140, R141). -/
theorem linkRecv_registry_cases {tm : Timeout} {s t : State} (h : exec (.linkRecv tm) s = .next t) :
    (t.reg = s.reg ∧ ∀ m c, t.response ≠ some (.received m c)) ∨
    (∃ m n, (s.reg.resolveAll params (m.aid.source :: m.aid.dests)).lookup s.localAddr = some n ∧
      t.reg = registryAfter params (s.reg.resolveAll params (m.aid.source :: m.aid.dests)) s.localAddr n m ∧
      t.response =
        some (.received (withAccepted m (judge params s.localAddr n m)) (judge params s.localAddr n m))) := by
  obtain rfl : linkRecvCmd params tm s = t := Host.Outcome.next.inj h
  rcases linkRecvCmd_cases params s tm with ⟨_, e⟩ | ⟨_, _, e⟩ | ⟨_, _, e⟩ | ⟨_, _, _, _, _, e⟩ |
    ⟨_, _, _, _, _, _, e⟩ | ⟨_, m, n, _, _, _, hl, e⟩ <;> rw [e]
  case inr.inr.inr.inr.inr => exact .inr ⟨m, n, hl, rfl, rfl⟩
  all_goals exact .inl ⟨rfl, fun _ _ hr => nomatch Option.some.inj hr⟩

/-- A table is as it was after its Node was resolved: a fresh one has no entries (R17, R135). -/
theorem tableLookup_resolveAll (P : Params) (reg : Registry) (ds : List Addr) (a : Addr) (k : ChannelKey) :
    ((reg.resolveAll P ds).lookup a).bind (fun n => n.rpt.lookup k) =
      (reg.lookup a).bind (fun n => n.rpt.lookup k) := by
  rcases lookup_resolveAll_cases P reg ds a with e | ⟨e₁, e₂⟩
  · rw [e]
  · rw [e₁, e₂]
    rfl

/-- Settles O45: the link and the ports, then the registry in the two kinds of answer. -/
theorem linkRecvFrame : Obligations.LinkRecvFrame := by
  intro tm s t h
  obtain ⟨hcon, hcfg, hloc, hth, hport, hopen, hwrite⟩ := linkRecv_keeps_link h
  refine ⟨hcon, hcfg, hloc, hth, hport, hopen, hwrite, ?_⟩
  rcases linkRecv_registry_cases h with ⟨hreg, hresp⟩ | ⟨m, n, hl, hreg, hresp⟩
  · rw [hreg]
    exact ⟨fun _ _ => .inl rfl, fun n hn => ⟨n, hn, rfl, rfl⟩, fun _ => rfl, fun m c hr => absurd hr (hresp m c)⟩
  · obtain ⟨n', hn', haddr, hkey, _, htable⟩ := lookup_registryAfter_self params hl m
    refine ⟨fun b hb => ?_, fun n₀ hn₀ => ?_, fun hno => absurd hresp (hno _ _), fun m' c hr => ?_⟩
    · rw [hreg, lookup_registryAfter_other params _ hb]
      exact lookup_resolveAll_cases params s.reg _ b
    · obtain rfl : n₀ = n := Option.some.inj ((lookup_resolveAll_present params hn₀ _).symm.trans hl)
      exact ⟨n', hreg ▸ hn', haddr, hkey⟩
    · obtain ⟨rfl, rfl⟩ := Response.received.inj (Option.some.inj (hresp.symm.trans hr))
      rw [withAccepted_aid]
      refine ⟨fun b hsrc hdst habs => ?_, fun k hk => ?_⟩
      · have hb : (s.reg.resolveAll params (m.aid.source :: m.aid.dests)).lookup b = none := by
          rw [lookup_resolveAll, if_neg (List.not_mem_cons_of_ne_of_not_mem hsrc hdst), habs]
        have hne : b ≠ s.localAddr := by
          rintro rfl
          rw [hl] at hb
          cases hb
        rw [hreg, lookup_registryAfter_other params _ hne, hb]
      · rw [hreg, hn', ← tableLookup_resolveAll params s.reg (m.aid.source :: m.aid.dests) s.localAddr k, hl]
        exact htable k hk

/-! ### Delivery under any parameters -/

/-- What a sent answer says: the buffer handed to the transport is the frame of the outgoing message (R138). -/
theorem linkSendCmd_sent {P : Params} {m m' : Message} {s : State} {nbytes : Nat} {th : Handle} {buf : List Byte}
    (hr : (linkSendCmd P m s).response = some (.sent m' nbytes))
    (hq : (linkSendCmd P m s).request = some (.write th buf)) :
    frmBuild P s.cfg.fdEnabled (outgoing P s m) = .ok buf := by
  rcases linkSendCmd_cases P s m with ⟨e, h⟩ | ⟨buf', _, _, hb, h⟩ <;> rw [h] at hr hq
  · cases hr
  · rcases transmit_cases (s.withReg (s.reg.resolveAll P m.aid.dests)) (outgoing P s m) buf' with
      ⟨_, h'⟩ | ⟨n, _, h'⟩ <;> rw [h'] at hq <;> cases hq <;> exact hb

/-- R88: the parser on a buffer the builder laid out. -/
theorem frmParse_of_frmBuild {P : Params} {fd : Bool} {m : Message} {buf : List Byte} (h : frmBuild P fd m = .ok buf)
    (ts : Timestamp) : frmParse P ts buf = .ok { m with timestamp := ts, accepted := false } := by
  obtain ⟨htags, _, k, v, hv, hlen, rfl⟩ := frmBuild_eq_ok h
  exact frmParse_layFrame hv htags hlen

/-- R140: a frame that parses, read by a link whose local Node is present, is answered with that Node's verdict. -/
theorem linkRecvCmd_delivers {P : Params} {s : State} {tm : Timeout} {buf : List Byte} {m : Message} {n : Node}
    (hc : s.constructed = true) (hn : s.reg.lookup s.localAddr = some n)
    (hr : (s.rxRead (.read s.th tm)).1 = .frame buf)
    (hp : frmParse P (s.rxRead (.read s.th tm)).2.drawnTimestamp buf = .ok m) :
    (linkRecvCmd P tm s).response =
      some (.received (withAccepted m (judge P s.localAddr n m)) (judge P s.localAddr n m)) := by
  have hres : ∀ ds, (s.reg.resolveAll P ds).lookup s.localAddr = some n := lookup_resolveAll_present P hn
  rcases linkRecvCmd_cases P s tm with ⟨hc', _⟩ | ⟨_, hr', _⟩ | ⟨_, hr', _⟩ | ⟨_, _, _, hr', hp', _⟩ |
    ⟨_, m', _, hr', hp', hl, _⟩ | ⟨_, m', n', _, hr', hp', hl, h⟩
  · rw [hc] at hc'; cases hc'
  · rw [hr] at hr'; cases hr'
  · rw [hr] at hr'; cases hr'
  · rw [hr] at hr'; cases hr'
    rw [hp] at hp'; cases hp'
  · rw [hres] at hl; cases hl
  · rw [hr] at hr'; cases hr'
    rw [hp] at hp'; cases hp'
    rw [hres] at hl; cases hl
    rw [h, respond_response]

/-- A message that carries one tag per destination, each under that destination's key, authenticates exactly at its
destinations (R101, R125). -/
theorem authentic_iff_mem_dests {P : Params} {a : Addr} {n : Node} {m : Message} {key : Addr → List Byte}
    (htags : m.tags = m.aid.dests.map fun d => macTag P (key d) m.payload) (hkey : n.key = key a) :
    authentic P a n m = true ↔ a ∈ m.aid.dests := by
  rw [← carriesTag_iff]
  constructor
  · rintro ⟨i, hi, _, _⟩
    exact List.mem_of_getElem? hi
  · intro hmem
    obtain ⟨i, hi⟩ := Option.isSome_iff_exists.1 (List.isSome_idxOf?.2 hmem)
    obtain ⟨hat, hfirst⟩ := (idxOf_eq_some a _ i).1 hi
    exact ⟨i, hat, hfirst, by rw [htags, List.getElem?_map, hat, hkey]; rfl⟩

theorem freshness_accepted_iff (P : Params) (n : Node) (m : Message) : freshness P n m = .accepted ↔
    ∃ c, m.payload[P.ctrIndex]? = some c ∧ n.rpt.current (messageChannel m) ≤ c.toNat := by
  unfold freshness carriedCounter
  cases m.payload[P.ctrIndex]? with
  | none => simp
  | some c => by_cases h : n.rpt.current (messageChannel m) ≤ c.toNat <;> simp [h]

theorem freshness_ne_authFailure (P : Params) (n : Node) (m : Message) : freshness P n m ≠ .authFailure := by
  unfold freshness
  cases carriedCounter P m.payload with
  | none => simp
  | some c => by_cases h : n.rpt.current (messageChannel m) ≤ c <;> simp [h]

/-- R121: authentication comes first, so its failure is its own cause. -/
theorem judge_authFailure_iff (P : Params) (a : Addr) (n : Node) (m : Message) :
    judge P a n m = .authFailure ↔ ¬ authentic P a n m = true := by
  unfold judge
  split
  · rename_i h
    exact iff_of_false (freshness_ne_authFailure P n m) (not_not_intro h)
  · rename_i h
    exact iff_of_true rfl h

theorem judge_accepted_iff (P : Params) (a : Addr) (n : Node) (m : Message) : judge P a n m = .accepted ↔
    authentic P a n m = true ∧
      ∃ c, m.payload[P.ctrIndex]? = some c ∧ n.rpt.current (messageChannel m) ≤ c.toNat := by
  rw [← freshness_accepted_iff]
  unfold judge
  split
  · rename_i h
    exact (and_iff_right h).symm
  · rename_i h
    exact iff_of_false (fun e => nomatch e) fun e => h e.1

theorem flag_iff (c : Cause) : c.flag = true ↔ c = .accepted := by
  cases c <;> simp [Cause.flag]

/-- The key of an address, present or not, is the derived one (R28 (ii), R135). -/
theorem nodeFor_key {P : Params} {reg : Registry} (hk : KeysFrom P reg) (d : Addr) :
    (reg.nodeFor P d).key = P.keyProv d := by
  unfold Registry.nodeFor
  cases h : reg.lookup d with
  | none => rfl
  | some n => exact (hk d n h).2

/-- R101, R138: the tags of an outgoing message, one per destination, under the derived keys. -/
theorem outgoing_tags {P : Params} {s : State} (hk : KeysFrom P s.reg) (m : Message) :
    (outgoing P s m).tags = m.aid.dests.map fun d => macTag P (P.keyProv d) m.payload := by
  simp only [outgoing, tagsFor, nodeFor_resolveAll, nodeFor_key hk]

/-- Settles O60: the receiver parses the outgoing message, and the verdict of its local Node is the two tests. -/
theorem anySharedParametersDeliver : Obligations.AnySharedParametersDeliver := by
  intro P m m' a b t nbytes buf th tm n ha hsend hsent hwrite hc hb hn hread
  obtain rfl : linkSendCmd P m a = t := Host.Outcome.next.inj hsend
  have hparse := frmParse_of_frmBuild (linkSendCmd_sent hsent hwrite) (b.rxRead (.read b.th tm)).2.drawnTimestamp
  generalize hr : ({ outgoing P a m with
    timestamp := (b.rxRead (.read b.th tm)).2.drawnTimestamp, accepted := false } : Message) = r at hparse
  have haid : r.aid = { m.aid with source := a.localAddr } := by rw [← hr]; rfl
  have hpay : r.payload = m.payload := by rw [← hr]; rfl
  have htags : r.tags = r.aid.dests.map fun d => macTag P (P.keyProv d) r.payload := by
    rw [haid, hpay, ← outgoing_tags ha, ← hr]
  have hauth : authentic P b.localAddr n r = true ↔ b.localAddr ∈ m.aid.dests := by
    rw [authentic_iff_mem_dests htags (hb _ n hn).2, haid]
  have hchan : messageChannel r = channelKey a.localAddr m.aid.dests := by rw [messageChannel, haid]
  refine ⟨_, withAccepted r (judge P b.localAddr n r), judge P b.localAddr n r, rfl,
    linkRecvCmd_delivers hc hn hread hparse, by rw [withAccepted_aid, haid], by rw [withAccepted_aid, haid],
    by rw [withAccepted_aid, haid], hpay, ?_, ?_⟩
  · rw [judge_authFailure_iff, hauth]
  · rw [show (withAccepted r (judge P b.localAddr n r)).accepted = (judge P b.localAddr n r).flag from rfl, flag_iff,
      judge_accepted_iff, hauth, hpay, hchan]
    rfl

end Sys2Proof.Machine
end

section
/-!
The front of the command port (20_memory.md R36, R40): what a step does with the first transfer that waits there.
-/

namespace Sys2Proof.Machine

open Sys2Proof

theorem fetch_of_port {s : State} {t : Transfer} {rest : List Transfer} (hp : s.port = t :: rest) :
    s.fetch = some (t, s.withPort rest) := by
  rw [State.fetch, hp]

/-- Settles O1: the fetch takes the front of the port, and the decoded instruction selects the first arm of `step`. -/
theorem stepRunsTheDecodedCommand : Obligations.StepRunsTheDecodedCommand := by
  intro s t rest i hp hd
  simp only [step, fetch_of_port hp, hd]

/-- Settles O4: among the decode errors only an unknown code has an arm of its own in `step`. -/
theorem brokenTransferStops : Obligations.BrokenTransferStops := by
  intro s t rest why hp hd hwhy
  cases why
  case unknownCode code => exact absurd rfl (hwhy code)
  all_goals simp only [step, fetch_of_port hp, hd]

end Sys2Proof.Machine
end

section
/-!
PROOFS. The encoder and the decoder of a transfer (30_encoding.md R45 to R56) undo each other: which bytes each part of
the decoder accepts, and which instruction it then answers.
-/

namespace Sys2Proof

open Sys2Proof.Machine

/-! ### Transfers that decode -/

/-- R40: a command is accepted exactly when its operands take up all the bytes and it is well formed. -/
theorem wholeCommand_eq_ok_iff {r : ReadResult Instr} {i : Instr} :
    wholeCommand r = .ok i ↔ r = .ok (i, []) ∧ WellFormed i = true := by
  constructor
  · intro h
    refine ⟨?_, wellFormed_of_wholeCommand h⟩
    obtain ⟨j, rest, rfl, hj⟩ := andThen_eq_ok h
    split at hj
    · rename_i hrest
      split at hj <;> cases hj
      rw [hrest]
    · cases hj
  · rintro ⟨rfl, hw⟩
    simp [wholeCommand, hw]

/-- R45, R48: a data word is accepted exactly when it is the four bytes of its fixed bits 31:29 and its operand. -/
theorem fixedTop_eq_ok_iff {top : Nat} (ht : top < 8) {bs : List Byte} {mk : V29 → Instr} {i : Instr} :
    fixedTop top bs mk = .ok i ↔ ∃ v, i = mk v ∧ bs = leBytes 4 (v.toNat + top * 2 ^ 29) := by
  constructor
  · intro h
    unfold fixedTop at h
    split at h
    · rename_i hl
      split at h <;> cases h
      rename_i htop
      have hn : leNat bs % 2 ^ 29 + top * 2 ^ 29 = leNat bs := by omega
      exact ⟨_, rfl, by rw [BitVec.toNat_ofNat, hn, leBytes_leNat bs hl]⟩
    · cases h
  · rintro ⟨v, rfl, rfl⟩
    have hv := v.isLt
    have hn : leNat (leBytes 4 (v.toNat + top * 2 ^ 29)) = v.toNat + top * 2 ^ 29 := by
      rw [leNat_leBytes]
      omega
    have htop : (v.toNat + top * 2 ^ 29) / 2 ^ 29 = top := by omega
    have hv29 : BitVec.ofNat 29 (v.toNat + top * 2 ^ 29) = v := by
      refine BitVec.eq_of_toNat_eq ?_
      rw [BitVec.toNat_ofNat]
      omega
    rw [fixedTop, if_pos (length_leBytes _ _), hn, if_pos htop, hv29]

/-- Every operand reads back, so the operands of a command do (R56). -/
theorem readOperands_of_encode {i : Instr} {code : Byte} {operands : List Byte}
    (h : encode i = commandTransfer code operands) (rest : List Byte) :
    readOperands code (operands ++ rest) = .ok (i, rest) := by
  cases i <;> cases h <;> simp [readOperands, List.append_assoc]

theorem decode_encode_of_command {i : Instr} {code : Byte} {operands : List Byte} (hw : WellFormed i = true)
    (h : encode i = commandTransfer code operands) : decode (encode i) = .ok i := by
  rw [h]
  refine wholeCommand_eq_ok_iff.2 ⟨?_, hw⟩
  rw [← readOperands_of_encode h [], List.append_nil]

/-- Settles O5: a command's operands read back, a data word is the four bytes of its operand, a buffer stands as it
is. -/
theorem encodedInstructionDecodes : Obligations.EncodedInstructionDecodes := by
  intro i hw
  cases i
  case arbid v => exact (fixedTop_eq_ok_iff (by decide)).2 ⟨v, rfl, by rw [Nat.zero_mul]; rfl⟩
  case identBuild v => exact (fixedTop_eq_ok_iff (by decide)).2 ⟨v, rfl, rfl⟩
  case identParse ident =>
    have hident : BitVec.ofNat 32 (leNat (leBytes 4 ident.toNat)) = ident := identOfBytes_identBytes .little ident
    simp only [encode, decode, length_leBytes, hident, if_true]
  case frameClassic buf => exact if_pos (beq_iff_eq.1 hw)
  case frameFd buf => exact if_pos (beq_iff_eq.1 hw)
  all_goals exact decode_encode_of_command hw rfl

/-! ### No other bytes name an instruction -/

theorem readsBack_naturals : ReadsBack (readList readNat) (writeList writeNat) := readsBack_list readsBack_nat

theorem readsBack_words (w : Nat) : ReadsBack (readList (readWord w)) (writeList writeWord) :=
  readsBack_list (readsBack_word w)

/-- `r` is what the command with this code reads from `bs` after the operand bytes `pre`: the bytes it takes are the
rest of the encoding of the instruction it answers. -/
def NamesItsBytes (code : Byte) (pre bs : List Byte) (r : ReadResult Instr) : Prop :=
  ∀ i rest, r = .ok (i, rest) → ∃ ops, encode i = commandTransfer code (pre ++ ops) ∧ bs = ops ++ rest

/-- One more operand is read: it takes the bytes its writer writes. -/
theorem ReadsBack.operand {α : Type} {rd : List Byte → ReadResult α} {wr : α → List Byte} (hrd : ReadsBack rd wr)
    {code : Byte} {pre bs : List Byte} {f : α → List Byte → ReadResult Instr}
    (hf : ∀ a rest, NamesItsBytes code (pre ++ wr a) rest (f a rest)) :
    NamesItsBytes code pre bs (andThen (rd bs) f) := by
  intro i rest h
  obtain ⟨a, bs', ha, hi⟩ := andThen_eq_ok h
  obtain ⟨ops, henc, rfl⟩ := hf a bs' i rest hi
  exact ⟨wr a ++ ops, by rw [henc, List.append_assoc], by rw [hrd bs a _ ha, List.append_assoc]⟩

/-- After the last operand, `pre` is the whole encoding. -/
theorem namesItsBytes_last {code : Byte} {n : Nat} {pre bs : List Byte} {i : Instr} (hc : code.toNat = n)
    (henc : encode i = commandTransfer (BitVec.ofNat 8 n) pre) : NamesItsBytes code pre bs (.ok (i, bs)) := by
  intro j rest h
  cases h
  exact ⟨[], by rw [henc, ← hc, BitVec.ofNat_toNat, BitVec.setWidth_eq, List.append_nil], rfl⟩

/-- R56: each command's operands in the order of its row. -/
theorem readOperands_namesItsBytes (code : Byte) (bs : List Byte) :
    NamesItsBytes code [] bs (readOperands code bs) := by
  unfold readOperands
  split
  case h_1 hc =>
    exact readsBack_nat.operand fun _ _ => readsBack_nat.operand fun _ _ => readsBack_naturals.operand fun _ _ =>
      namesItsBytes_last hc rfl
  case h_2 hc => exact (readsBack_word 29).operand fun _ _ => namesItsBytes_last hc rfl
  case h_3 hc | h_18 hc => exact readsBack_nat.operand fun _ _ => namesItsBytes_last hc rfl
  case h_4 hc | h_17 hc => exact readsBack_message.operand fun _ _ => namesItsBytes_last hc rfl
  case h_5 hc => exact readsBack_bytes.operand fun _ _ => namesItsBytes_last hc rfl
  case h_6 hc | h_16 hc => exact (readsBack_word 6).operand fun _ _ => namesItsBytes_last hc rfl
  case h_7 hc =>
    exact readsBack_bytes.operand fun _ _ => readsBack_bytes.operand fun _ _ => namesItsBytes_last hc rfl
  case h_8 hc =>
    exact readsBack_bytes.operand fun _ _ => readsBack_bytes.operand fun _ _ => readsBack_bytes.operand fun _ _ =>
      namesItsBytes_last hc rfl
  case h_9 hc | h_11 hc =>
    exact (readsBack_word 6).operand fun _ _ => (readsBack_word 6).operand fun _ _ =>
      (readsBack_words 6).operand fun _ _ => namesItsBytes_last hc rfl
  case h_10 hc =>
    exact (readsBack_word 6).operand fun _ _ => (readsBack_word 6).operand fun _ _ =>
      (readsBack_words 6).operand fun _ _ => readsBack_nat.operand fun _ _ => namesItsBytes_last hc rfl
  case h_12 hc =>
    exact (readsBack_word 6).operand fun _ _ => readsBack_message.operand fun _ _ => namesItsBytes_last hc rfl
  case h_13 hc =>
    exact readsBack_nat.operand fun _ _ => readsBack_nat.operand fun _ _ => readsBack_nat.operand fun _ _ =>
      readsBack_naturals.operand fun _ _ => readsBack_naturals.operand fun _ _ => namesItsBytes_last hc rfl
  case h_14 hc => exact readsBack_cfg.operand fun _ _ => namesItsBytes_last hc rfl
  case h_15 hc => exact readsBack_naturals.operand fun _ _ => namesItsBytes_last hc rfl
  case h_19 => exact fun _ _ h => nomatch h

/-- Settles O6: in each format the bytes that are accepted are those the encoder writes. -/
theorem decodedTransferIsItsEncoding : Obligations.DecodedTransferIsItsEncoding := by
  rintro ⟨format, bytes⟩ i h
  cases format with
  | cmd8 =>
    cases bytes with
    | nil => cases h
    | cons code operands =>
      obtain ⟨hread, _⟩ := wholeCommand_eq_ok_iff.1 h
      obtain ⟨ops, henc, rfl⟩ := readOperands_namesItsBytes code operands i [] hread
      rw [henc, List.append_nil]
      rfl
  | v29 =>
    obtain ⟨v, rfl, rfl⟩ := (fixedTop_eq_ok_iff (by decide)).1 h
    rw [Nat.zero_mul]
    rfl
  | identWritten =>
    obtain ⟨v, rfl, rfl⟩ := (fixedTop_eq_ok_iff (by decide)).1 h
    rfl
  | identRead =>
    simp only [decode] at h
    split at h <;> cases h
    rename_i hl
    rw [encode, BitVec.toNat_ofNat, Nat.mod_eq_of_lt (leNat_lt bytes hl), leBytes_leNat bytes hl]
  | buf16 =>
    simp only [decode] at h
    split at h <;> cases h
    rfl
  | buf72 =>
    simp only [decode] at h
    split at h <;> cases h
    rfl

/-! ### The table of codes -/

theorem mem_commandCodes_of_toNat {code : Byte} {n : Nat} (hc : code.toNat = n)
    (hn : BitVec.ofNat 8 n ∈ commandCodes) : code ∈ commandCodes := by
  rwa [← hc, BitVec.ofNat_toNat, BitVec.setWidth_eq] at hn

theorem readOperands_unknownCode {code : Byte} (h : code ∉ commandCodes) (bs : List Byte) :
    readOperands code bs = .error (.unknownCode code) := by
  unfold readOperands
  split
  case h_19 => rfl
  all_goals
    rename_i hc
    exact absurd (mem_commandCodes_of_toNat hc (by decide)) h

/-- Settles O3: the decode error is the one that `step` refuses. -/
theorem codeOutsideTheTableIsRefused : Obligations.CodeOutsideTheTableIsRefused := by
  intro s code operands rest hcode hp
  have hd : decode { format := .cmd8, bytes := code :: operands } = .error (.unknownCode code) :=
    congrArg wholeCommand (readOperands_unknownCode hcode operands)
  simp only [step, fetch_of_port hp, hd]

/-- Settles O8: the decoder evaluated on the seven words. -/
theorem tableWordsDecode : Obligations.TableWordsDecode := ⟨rfl, rfl, rfl, rfl, rfl, rfl, rfl⟩

end Sys2Proof
end

section
/-!
PROOFS. Words and buffers (30_encoding.md R45 to R54, 41_frame_codec.md R86, R91): what the data encodings answer, and
which parts of a buffer the parser reads.
-/

namespace Sys2Proof.Machine

open Sys2Proof

/-! ### The data encodings -/

/-- Settles O15: the six fields are the digits of the value in the layout of R45. -/
theorem arbidAnswersTheSixFields : Obligations.ArbidAnswersTheSixFields := by
  intro v s
  refine ⟨extractFields v, rfl, ?_⟩
  obtain ⟨hp, hs, hq, h0, h1, h2⟩ := extractFields_toNat v
  rw [hp, hs, hq, h0, h1, h2, arbNumber]
  omega

/-- Settles O16: the numbers of the built identifier and of the parsed one. -/
theorem identifierBuildAndParse : Obligations.IdentifierBuildAndParse :=
  ⟨fun v _ => ⟨identBuild v, rfl, identBuild_toNat v⟩, fun i _ => ⟨identParse i, rfl, identParse_toNat i⟩⟩

theorem kindOfSize_cap (k : FrameKind) : kindOfSize (8 + k.cap) = .ok k := by
  cases k <;> rfl

/-- R91: a length byte that the shape holds. -/
theorem frameView_ok (P : Params) {k : FrameKind} {buf : List Byte} (hlen : (buf.getD 4 0).toNat ≤ k.cap) :
    frameView P k buf = .ok
      { ident := identOfBytes P.idByteOrder (buf.take 4), length := buf.getD 4 0,
        body := (buf.drop 8).take (buf.getD 4 0).toNat } := if_neg (not_lt.2 hlen)

/-- R50, R51: a length byte beyond the shape's data region. -/
theorem frameView_badLength (P : Params) {k : FrameKind} {buf : List Byte} (hlen : k.cap < (buf.getD 4 0).toNat) :
    frameView P k buf = .error (.malformedFrame .badLength) := if_pos hlen

/-- R53, R91: a buffer of the shape's own size is answered with its view, or refused for its length byte. -/
theorem frameViewCmd_of_size (P : Params) {k : FrameKind} {buf : List Byte} (hsize : buf.length = 8 + k.cap)
    (s : State) :
    ((buf.getD 4 0).toNat ≤ k.cap → frameViewCmd P k buf s = s.answer (.view
      { ident := identOfBytes P.idByteOrder (buf.take 4), length := buf.getD 4 0,
        body := (buf.drop 8).take (buf.getD 4 0).toNat })) ∧
    (k.cap < (buf.getD 4 0).toNat → frameViewCmd P k buf s = s.raise (.malformedFrame .badLength) none) := by
  rw [frameViewCmd, frameViewOf, hsize, if_pos (kindOfSize_cap k)]
  constructor <;> intro hlen
  · rw [frameView_ok P hlen]
    rfl
  · rw [frameView_badLength P hlen]
    rfl

/-- Settles O17: the two sizes are those of the two shapes. -/
theorem frameBuffersAnswerTheirView : Obligations.FrameBuffersAnswerTheirView := by
  refine ⟨fun buf s hsize => ?_, fun buf s hsize => ?_⟩
  · obtain ⟨hview, hbad⟩ := frameViewCmd_of_size params (k := .classic) hsize s
    exact ⟨fun hlen => congrArg Host.Outcome.next (hview hlen), fun hlen => congrArg Host.Outcome.next (hbad hlen)⟩
  · obtain ⟨hview, hbad⟩ := frameViewCmd_of_size params (k := .fd) hsize s
    exact ⟨fun hlen => congrArg Host.Outcome.next (hview hlen), fun hlen => congrArg Host.Outcome.next (hbad hlen)⟩

/-! ### What the parser reads -/

theorem arbId_eq_of_toNat {a b : ArbId} (hp : a.priority.toNat = b.priority.toNat)
    (hs : a.source.toNat = b.source.toNat) (hd : a.dests.map BitVec.toNat = b.dests.map BitVec.toNat) : a = b := by
  obtain ⟨p, s, ds⟩ := a
  obtain ⟨p', s', ds'⟩ := b
  obtain rfl : p = p' := BitVec.eq_of_toNat_eq hp
  obtain rfl : s = s' := BitVec.eq_of_toNat_eq hs
  obtain rfl : ds = ds' := List.map_injective_iff.2 (fun _ _ => BitVec.eq_of_toNat_eq) hd
  rfl

/-- R54, R72: below the slots in use nothing of an encoded id is read. -/
theorem aidDecode_congr {v w : V29} (h : v.toNat / 2 ^ (18 - 6 * (v.toNat / 2 ^ 18 % 4)) =
    w.toNat / 2 ^ (18 - 6 * (v.toNat / 2 ^ 18 % 4))) : aidDecode v = aidDecode w := by
  obtain ⟨hp, hs, hd⟩ := aidDecode_toNat v
  obtain ⟨hp', hs', hd'⟩ := aidDecode_toNat w
  have hq : v.toNat / 2 ^ 18 % 4 < 4 := Nat.mod_lt _ (by decide)
  generalize hqv : v.toNat / 2 ^ 18 % 4 = q at *
  have hhigh : v.toNat / 2 ^ 18 = w.toNat / 2 ^ 18 := by
    interval_cases q <;> simp only [Nat.reduceMul, Nat.reduceSub] at h <;> omega
  have hqw : w.toNat / 2 ^ 18 % 4 = q := hhigh ▸ hqv
  rw [hqw] at hd'
  refine arbId_eq_of_toNat (by omega) (by omega) ?_
  rw [hd, hd']
  -- for each number of slots in use, `h` keeps the digits of exactly those slots
  interval_cases q <;> simp only [Nat.reduceMul, Nat.reduceSub] at h <;> simp <;> omega

/-- The parser reads the size, the length byte, that many data bytes and the arbitration id (R86). -/
theorem frmParse_congr (P : Params) (ts : Timestamp) {b c : List Byte} (hsize : b.length = c.length)
    (hlen : b.getD 4 0 = c.getD 4 0)
    (hbody : (b.drop 8).take (b.getD 4 0).toNat = (c.drop 8).take (b.getD 4 0).toNat)
    (haid : aidDecode (identParse (identOfBytes P.idByteOrder (b.take 4))) =
      aidDecode (identParse (identOfBytes P.idByteOrder (c.take 4)))) :
    frmParse P ts b = frmParse P ts c := by
  rw [hlen] at hbody
  unfold frmParse
  rw [hsize]
  cases kindOfSize c.length with
  | error e => rfl
  | ok k =>
    rcases le_or_gt (c.getD 4 0).toNat k.cap with hcap | hcap
    · simp only [frameView_ok P hcap, frameView_ok P (hlen ▸ hcap), hlen, hbody, haid]
    · simp only [frameView_badLength P hcap, frameView_badLength P (hlen ▸ hcap)]

theorem frmParseCmd_congr {P : Params} {b c : List Byte} {s : State}
    (h : frmParse P s.drawnTimestamp b = frmParse P s.drawnTimestamp c) : frmParseCmd P b s = frmParseCmd P c s := by
  rw [frmParseCmd, frmParseCmd, h]

/-- R35, R48: the encoded id of a little-endian identifier is the number's bits 28:0. -/
theorem identParse_ofNat_toNat (n : Nat) : (identParse (BitVec.ofNat 32 n)).toNat = n % 2 ^ 29 := by
  rw [identParse_toNat, BitVec.toNat_ofNat]
  omega

/-- Settles O22: the two identifiers decode to one arbitration id, and the parser reads the rest from equal parts. -/
theorem frmParseIgnoresReservedBits : Obligations.FrmParseIgnoresReservedBits := by
  intro b c s hsize hlen hbody hident
  refine congrArg Host.Outcome.next (frmParseCmd_congr (frmParse_congr params _ hsize hlen hbody (aidDecode_congr ?_)))
  have hq : leNat (b.take 4) % 2 ^ 29 / 2 ^ 18 % 4 = leNat (b.take 4) / 2 ^ 18 % 4 := by omega
  simp only [params, identOfBytes, identParse_ofNat_toNat, hq]
  exact hident

end Sys2Proof.Machine
end

section
/-!
PROOFS. Arbitration ids (40_arbitration_id.md R70 to R76): what `AID.ENC` and `AID.DEC` answer, and what is left of a
value or of its fields after both.
-/

namespace Sys2Proof.Machine

open Sys2Proof

/-! ### The two commands -/

theorem exec_aidEnc (p src : Nat) (ds : List Nat) (s : State) :
    exec (.aidEnc p src ds) s = .next (s.reply ((aidEncode p src ds).map .v29)) := rfl

theorem exec_aidEnc_of_ok {p src : Nat} {ds : List Nat} {v : V29} (h : aidEncode p src ds = .ok v) (s : State) :
    exec (.aidEnc p src ds) s = .next (s.answer (.v29 v)) := by
  rw [exec_aidEnc, h, Except.map, reply_ok, answer_eq]

theorem exec_aidEnc_of_error {p src : Nat} {ds : List Nat} {e : Err} (h : aidEncode p src ds = .error e) (s : State) :
    exec (.aidEnc p src ds) s = .next (s.raise e none) := by
  rw [exec_aidEnc, h, Except.map, reply_error, raise_eq]

theorem exec_aidDec (v : V29) (s : State) : exec (.aidDec v) s = .next (s.answer (.arbId (aidDecode v))) := rfl

/-- R71: what encoding does out of range. -/
theorem aidEncode_error {p src : Nat} {ds : List Nat} (h : ¬ InRange p src ds) :
    aidEncode p src ds = .error (.malformedMessage .badArbitrationId) :=
  if_neg (mt (aidValid_iff p src ds).1 h)

/-- Settles O10: in range the fields keep to their widths, so that or-ing them in place adds them. -/
theorem aidEncPacksTheFields : Obligations.AidEncPacksTheFields := by
  refine fun p src ds s => ⟨fun h => ?_, fun h => exec_aidEnc_of_error (aidEncode_error h) s⟩
  obtain ⟨v, hv, hn⟩ := aidEncode_ok h
  exact ⟨v, exec_aidEnc_of_ok hv s, hn⟩

/-! ### Fields as bits -/

/-- A field by bit position is the number's digit there. -/
theorem toNat_extractLsb'_eq_div_mod {w : Nat} (v : BitVec w) (start len : Nat) :
    (v.extractLsb' start len).toNat = v.toNat / 2 ^ start % 2 ^ len := by
  rw [BitVec.extractLsb'_toNat, Nat.shiftRight_eq_div_pow]

/-- R47: masking a shifted value takes the bits of the field. -/
theorem extractFields_eq_extractLsb' (v : V29) : extractFields v =
    { p := v.extractLsb' 26 3, s := v.extractLsb' 20 6, q := v.extractLsb' 18 2
      d0 := v.extractLsb' 12 6, d1 := v.extractLsb' 6 6, d2 := v.extractLsb' 0 6 } := by
  have hv := v.isLt
  obtain ⟨hp, hs, hq, h0, h1, h2⟩ := extractFields_toNat v
  cases hf : extractFields v
  rw [hf] at hp hs hq h0 h1 h2
  simp only [ArbFields.mk.injEq, ← BitVec.toNat_inj, toNat_extractLsb'_eq_div_mod, hp, hs, hq, h0, h1, h2]
  omega

/-- Settles O11: the decoder lists the first slots of the six fields. -/
theorem aidDecExtractsTheFields : Obligations.AidDecExtractsTheFields := by
  refine fun v s => ⟨aidDecode v, exec_aidDec v s, ?_⟩
  rw [aidDecode, extractFields_eq_extractLsb']
  exact ⟨rfl, rfl, rfl⟩

/-- Settles O14: of three slots, the decoder takes as many as the two bits say. -/
theorem decodedQuantityIsTheListLength : Obligations.DecodedQuantityIsTheListLength := by
  intro v s t aid ht hr
  rw [exec_aidDec] at ht
  cases ht
  cases hr
  exact (length_aidDecode v).trans (toNat_extractLsb'_eq_div_mod v 18 2).symm

/-! ### Both, one after the other -/

/-- Settles O12: the layout keeps every field, and the quantity says how many slots are destinations. -/
theorem aidDecUndoesAidEnc : Obligations.AidDecUndoesAidEnc := by
  intro p src ds s s' h
  obtain ⟨v, hv, -⟩ := aidEncode_ok h
  exact ⟨v, aidDecode v, exec_aidEnc_of_ok hv s, exec_aidDec v s', aidDecode_of_encode h hv⟩

theorem wellFormed_aidDecode (v : V29) : (aidDecode v).wellFormed = true := by
  refine decide_eq_true ?_
  rw [length_aidDecode]
  exact Nat.le_of_lt_succ (Nat.mod_lt _ (by decide))

/-- R75: the number of a decoded value has 0 in the slots that are not in use. -/
theorem aidNumber_aidDecode (v : V29) : aidNumber (aidDecode v) =
    v.toNat / 2 ^ (18 - 6 * (v.toNat / 2 ^ 18 % 4)) * 2 ^ (18 - 6 * (v.toNat / 2 ^ 18 % 4)) := by
  obtain ⟨hp, hs, hd⟩ := aidDecode_toNat v
  have hq : v.toNat / 2 ^ 18 % 4 < 4 := Nat.mod_lt _ (by decide)
  simp only [aidNumber, arbNumber, hp, hs, hd]
  generalize hqv : v.toNat / 2 ^ 18 % 4 = q at *
  -- for each number of slots in use, the kept slots and the zeros are the number's digits
  interval_cases q <;> simp <;> omega

/-- Settles O13: the encoder writes the decoded id's number, whose unused slots are 0. -/
theorem reencodingClearsUnusedSlots : Obligations.ReencodingClearsUnusedSlots := by
  intro v s s'
  obtain ⟨w, hw, hn, -⟩ := encodeAid_ok (wellFormed_aidDecode v)
  rw [aidNumber_aidDecode] at hn
  refine ⟨aidDecode v, w, exec_aidDec v s, exec_aidEnc_of_ok hw s', hn, ?_⟩
  rw [← BitVec.toNat_inj, hn, ← Nat.dvd_iff_div_mul_eq, Nat.dvd_iff_mod_eq_zero]

end Sys2Proof.Machine
end

section
/-!
PROOFS. The frame codec (41_frame_codec.md R80 to R88): the shape `FRM.SEL` chooses, the buffer `FRM.BUILD` lays out,
the message `FRM.PARSE` splits from a buffer, and the message both leave as it was.
-/

namespace Sys2Proof.Machine

open Sys2Proof

/-! ### The shape -/

theorem exec_frmSel {s : State} (hc : s.constructed = true) (n : Nat) :
    exec (.frmSel n) s = .next (s.reply ((frmSel s.cfg.fdEnabled n).map .kind)) :=
  congrArg Host.Outcome.next (whenConstructed_true hc _)

/-- Settles O18: a combined length fits the shorter shape, the longer one where it is enabled, or none. -/
theorem frmSelChoosesTheShape : Obligations.FrmSelChoosesTheShape := by
  intro n s hc
  rw [exec_frmSel hc]
  refine ⟨fun h8 => ?_, fun ⟨h8, h64, hfd⟩ => ?_, fun ⟨h8, hbig⟩ => ?_⟩
  · rw [frmSel_fit (.inl h8), if_pos h8]
    rfl
  · rw [frmSel_fit (.inr ⟨h64, hfd⟩), if_neg (not_le.2 h8)]
    rfl
  · have hnofit : ¬ Fits s.cfg.fdEnabled n := by
      rintro (h | ⟨h64, hfd⟩)
      · omega
      · rcases hbig with h | hoff
        · omega
        · exact Bool.noConfusion (hfd.symm.trans hoff)
    rw [frmSel_nofit hnofit]
    rfl

/-! ### Building -/

theorem exec_frmBuild {s : State} (hc : s.constructed = true) (m : Message) :
    exec (.frmBuild m) s = .next (s.reply ((frmBuild params s.cfg.fdEnabled m).map .buffer)) :=
  congrArg Host.Outcome.next (whenConstructed_true hc _)

/-- R84: without a tag of the right length for each destination. -/
theorem frmBuild_badTags {P : Params} {m : Message} (ht : ¬ TagsFitFor P m) (fd : Bool) :
    frmBuild P fd m = .error (.malformedMessage .badTags) :=
  if_neg (mt (tagsMatch_iff P m).1 ht)

/-- R83: a body that no shape holds is refused before the arbitration id is encoded. -/
theorem frmBuild_payloadTooLong {P : Params} {fd : Bool} {m : Message} (ht : TagsFitFor P m)
    (hf : ¬ Fits fd (m.payload ++ m.tags.flatten).length) :
    frmBuild P fd m = .error (.malformedMessage .payloadTooLong) := by
  rw [frmBuild, if_pos ((tagsMatch_iff P m).2 ht)]
  simp only [frmSel_nofit hf]

/-- R48, R50, R51: the bytes of a laid-out frame under this machine's byte order, in numbers. -/
theorem layFrame_params (k : FrameKind) (v : V29) (body : List Byte) :
    layFrame params k (identBuild v) body =
      leBytes 4 (v.toNat + 2 ^ 31) ++ [BitVec.ofNat 8 body.length, 0, 0, 0] ++ body ++
        List.replicate (k.cap - body.length) 0 := by
  have hid : identBytes params.idByteOrder (identBuild v) = leBytes 4 (v.toNat + 2 ^ 31) :=
    congrArg (leBytes 4) (identBuild_toNat v)
  rw [layFrame, hid, List.append_assoc (leBytes 4 _)]
  rfl

/-- Settles O19: the two refusals in their order, then the frame of the chosen shape. -/
theorem frmBuildLaysOutTheFrame : Obligations.FrmBuildLaysOutTheFrame := by
  intro m s hw hc
  dsimp only
  rw [exec_frmBuild hc]
  refine ⟨fun ht => ?_, fun ⟨ht, hf⟩ => ?_, fun ⟨ht, hf⟩ => ?_⟩
  · rw [frmBuild_badTags ht]
    rfl
  · rw [frmBuild_payloadTooLong ht hf]
    rfl
  · obtain ⟨v, -, hv, -, hbuild⟩ := frmBuild_ok hw ht hf
    rw [hbuild, layFrame_params, hv, apply_ite FrameKind.cap]
    rfl

/-! ### Parsing -/

theorem exec_frmParse (buf : List Byte) (s : State) : exec (.frmParse buf) s = .next (frmParseCmd params buf s) := rfl

theorem frmParseCmd_of_error {P : Params} {buf : List Byte} {s : State} {e : Err}
    (h : frmParse P s.drawnTimestamp buf = .error e) : frmParseCmd P buf s = s.raise e none := by
  rw [frmParseCmd, h]

theorem frmParseCmd_of_ok {P : Params} {buf : List Byte} {s : State} {m : Message}
    (h : frmParse P s.drawnTimestamp buf = .ok m) : frmParseCmd P buf s = s.drawn.answer (.message m) := by
  rw [frmParseCmd, h]

/-- The arbitration id that the first four bytes of a buffer hold (R48, R72). -/
def bufferAid (P : Params) (buf : List Byte) : ArbId := aidDecode (identParse (identOfBytes P.idByteOrder (buf.take 4)))

/-- R35: this machine reads the identifier with the least significant byte first. -/
theorem bufferAid_params (buf : List Byte) :
    ∃ v : V29, v.toNat = leNat (buf.take 4) % 2 ^ 29 ∧ bufferAid params buf = aidDecode v :=
  ⟨_, identParse_ofNat_toNat _, rfl⟩

theorem length_bufferAid_params (buf : List Byte) :
    (bufferAid params buf).dests.length = leNat (buf.take 4) % 2 ^ 29 / 2 ^ 18 % 4 := by
  obtain ⟨v, hv, haid⟩ := bufferAid_params buf
  rw [haid, length_aidDecode, hv]

/-- R53: the two sizes of a frame are those of the two shapes. -/
theorem size_eq_cap {buf : List Byte} (h : buf.length = 16 ∨ buf.length = 72) :
    ∃ k : FrameKind, buf.length = 8 + k.cap ∧ (if buf.length = 16 then 8 else 64) = k.cap := by
  rcases h with h | h
  · exact ⟨.classic, h, if_pos h⟩
  · exact ⟨.fd, h, if_neg (by omega)⟩

theorem frmParse_badSize {P : Params} {buf : List Byte} (h : ¬ (buf.length = 16 ∨ buf.length = 72)) (ts : Timestamp) :
    frmParse P ts buf = .error (.malformedFrame .badSize) := by
  obtain ⟨h16, h72⟩ := not_or.1 h
  have hk : kindOfSize buf.length = .error (.malformedFrame .badSize) := (if_neg h16).trans (if_neg h72)
  rw [frmParse, hk]

/-- R86: a length byte beyond the data region, or one that leaves no room for the tags. -/
theorem frmParse_badLength {P : Params} {k : FrameKind} {buf : List Byte} (hsize : buf.length = 8 + k.cap)
    (h : k.cap < (buf.getD 4 0).toNat ∨ (buf.getD 4 0).toNat < (bufferAid P buf).dests.length * P.tagLen)
    (ts : Timestamp) : frmParse P ts buf = .error (.malformedFrame .badLength) := by
  simp only [frmParse, hsize, kindOfSize_cap]
  rcases lt_or_ge k.cap (buf.getD 4 0).toNat with hcap | hcap
  · rw [frameView_badLength P hcap]
  · rw [frameView_ok P hcap]
    exact if_pos (h.resolve_left (not_lt.2 hcap))

/-- R52: splitting the first `len` bytes of a data region, in places of the region. -/
theorem splitBody_take (P : Params) {q len : Nat} {region : List Byte} (hlen : len ≤ region.length)
    (hq : q * P.tagLen ≤ len) :
    splitBody P q (region.take len) = (region.take (len - q * P.tagLen),
      (List.range q).map fun i => (region.drop (len - q * P.tagLen + i * P.tagLen)).take P.tagLen) := by
  simp only [splitBody, List.length_take_of_le hlen]
  refine Prod.ext ?_ (List.map_congr_left fun i hi => ?_)
  · rw [List.take_take, min_eq_left (Nat.sub_le _ _)]
  · have hi : (i + 1) * P.tagLen ≤ q * P.tagLen := Nat.mul_le_mul_right _ (List.mem_range.1 hi)
    rw [Nat.add_mul] at hi
    rw [tagAt, List.drop_drop, List.drop_take, List.take_take, min_eq_left (by omega)]

/-- R86: what the parser answers on a buffer of the shape's size whose length byte the shape holds and the tags fit. -/
theorem frmParse_ok {P : Params} {k : FrameKind} {buf : List Byte} (hsize : buf.length = 8 + k.cap)
    (hcap : (buf.getD 4 0).toNat ≤ k.cap)
    (hq : (bufferAid P buf).dests.length * P.tagLen ≤ (buf.getD 4 0).toNat) (ts : Timestamp) :
    frmParse P ts buf = .ok
      { timestamp := ts, aid := bufferAid P buf, accepted := false
        payload := (buf.drop 8).take ((buf.getD 4 0).toNat - (bufferAid P buf).dests.length * P.tagLen)
        tags := (List.range (bufferAid P buf).dests.length).map fun i =>
          (buf.drop (8 + ((buf.getD 4 0).toNat - (bufferAid P buf).dests.length * P.tagLen) + i * P.tagLen)).take
            P.tagLen } := by
  have hsplit := splitBody_take P (region := buf.drop 8) (by rw [List.length_drop]; omega) hq
  simp only [List.drop_drop, ← Nat.add_assoc] at hsplit
  have haid : aidDecode (identParse (identOfBytes P.idByteOrder (buf.take 4))) = bufferAid P buf := rfl
  simp only [frmParse, hsize, kindOfSize_cap, frameView_ok P hcap, haid, hsplit, if_neg (not_lt.2 hq)]

/-- R86: a buffer that the parser accepts gives the message it holds. -/
theorem frmParse_of_parses {buf : List Byte} (h : Parses buf) (ts : Timestamp) :
    ∃ m, frmParse params ts buf = .ok m ∧ HoldsMessage buf m := by
  obtain ⟨hsize, hcap, hq⟩ := h
  obtain ⟨k, hsize, hk⟩ := size_eq_cap hsize
  obtain ⟨v, hv, haid⟩ := bufferAid_params buf
  obtain ⟨hp, hs, hd⟩ := aidDecode_toNat v
  rw [← haid, hv] at hp hs hd
  rw [hk] at hcap
  rw [← length_bufferAid_params] at hq
  exact ⟨_, frmParse_ok hsize hcap hq ts, ⟨hp, hs, hd, rfl, rfl, rfl⟩⟩

/-- R46: the quantity field counts the destinations of the message held. -/
theorem HoldsMessage.length_dests {buf : List Byte} {m : Message} (h : HoldsMessage buf m) :
    m.aid.dests.length = leNat (buf.take 4) % 2 ^ 29 / 2 ^ 18 % 4 := by
  have hlen := congrArg List.length h.dests
  simp only [List.length_map, List.length_take, List.length_cons, List.length_nil] at hlen
  omega

/-- Settles O20: the two refusals, then the fields of the message that the buffer holds. -/
theorem frmParseSplitsTheFrame : Obligations.FrmParseSplitsTheFrame := by
  intro buf s
  dsimp only
  rw [exec_frmParse]
  refine ⟨fun hsize => ?_, fun ⟨hsize, hbad⟩ => ?_, fun ⟨hsize, hcap, hq⟩ => ?_⟩
  · rw [frmParseCmd_of_error (frmParse_badSize hsize _)]
  · obtain ⟨k, hsize, hk⟩ := size_eq_cap hsize
    rw [hk, ← length_bufferAid_params] at hbad
    rw [frmParseCmd_of_error (frmParse_badLength hsize hbad _)]
  · obtain ⟨m, hparse, hm⟩ := frmParse_of_parses ⟨hsize, hcap, hq⟩ s.drawnTimestamp
    rw [frmParseCmd_of_ok hparse, ← hm.length_dests]
    exact ⟨_, m, rfl, rfl, drawn_block s, hm.accepted, hm.priority, hm.source, hm.length_dests ▸ hm.dests,
      hm.payload, hm.tags⟩

/-! ### Both, one after the other -/

/-- The host sees a buffer only when the builder answers it. -/
theorem frmBuild_of_exec {m : Message} {s : State} {buf : List Byte} (hc : s.constructed = true)
    (h : exec (.frmBuild m) s = .next (s.answer (.buffer buf))) : frmBuild params s.cfg.fdEnabled m = .ok buf := by
  rw [exec_frmBuild hc] at h
  have hr := congrArg State.response (Host.Outcome.next.inj h)
  cases hb : frmBuild params s.cfg.fdEnabled m with
  | error e =>
    rw [hb] at hr
    cases hr
  | ok buf' =>
    rw [hb] at hr
    cases hr
    rfl

/-- Settles O21: the parser gives a built message back, but for the timestamp it draws and the flag. -/
theorem frmParseUndoesFrmBuild : Obligations.FrmParseUndoesFrmBuild := by
  intro m s s' buf hc h
  have hparse := frmParse_of_frmBuild (frmBuild_of_exec hc h) s'.drawnTimestamp
  exact ⟨_, _, congrArg Host.Outcome.next (frmParseCmd_of_ok hparse), rfl, rfl, rfl, rfl, rfl⟩

end Sys2Proof.Machine
end

section
/-!
PROOFS. Keys and tags (42_authentication.md): the key provider's answer, the tag as the tail of the digest, its
byte-for-byte comparison, and the two digits of `HEX` for each byte.
-/

namespace Sys2Proof.Machine

open Sys2Proof

/-! ### What the three commands answer -/

theorem exec_keyDerive (a : Addr) (s : State) :
    exec (.keyDerive a) s = .next (s.answer (.key (params.keyProv a))) := rfl

theorem exec_macTag (key payload : List Byte) (s : State) :
    exec (.macTag key payload) s = .next (s.answer (.tag (macTag params key payload))) := rfl

theorem exec_macVerify (key payload tag : List Byte) (s : State) :
    exec (.macVerify key payload tag) s = .next (s.answer (.verdict (macVerify params key payload tag))) := rfl

/-- Settles O23: the command's answer is the provider's. -/
theorem keyDeriveAsksTheProvider : Obligations.KeyDeriveAsksTheProvider :=
  exec_keyDerive

/-! ### Tags -/

/-- R98: a tag ends the keyed hash of the rendered payload. -/
theorem macTag_suffix (P : Params) (key payload : List Byte) : macTag P key payload <:+ P.mac key (P.hex payload) :=
  List.drop_suffix _ _

/-- Settles O24: the tag is a suffix of the digest and has `TAG_LEN` bytes. -/
theorem macTagIsTheDigestTail : Obligations.MacTagIsTheDigestTail := by
  intro key payload s
  obtain ⟨front, hfront⟩ := macTag_suffix params key payload
  exact ⟨front, macTag params key payload, exec_macTag key payload s, length_macTag params key payload, hfront.symm⟩

/-- R100: a tag verifies when it has `TAG_LEN` bytes and each is the byte of the recomputed tag. -/
theorem macVerify_iff_bytes (P : Params) (key payload tag : List Byte) :
    macVerify P key payload tag = true ↔
      tag.length = P.tagLen ∧ ∀ i, i < P.tagLen → tag[i]? = (macTag P key payload)[i]? := by
  rw [macVerify_iff]
  have hexpected := length_macTag P key payload
  constructor
  · rintro rfl
    exact ⟨hexpected, fun _ _ => rfl⟩
  · rintro ⟨hlen, hbytes⟩
    refine List.ext_getElem? fun i => ?_
    rcases lt_or_ge i P.tagLen with hi | hi
    · exact hbytes i hi
    · rw [List.getElem?_eq_none (hlen.trans_le hi), List.getElem?_eq_none (hexpected.trans_le hi)]

/-- Settles O25: the expected tag is the one `MAC.TAG` answers, and equality of lists is compared byte for byte. -/
theorem macVerifyComparesWithTheTag : Obligations.MacVerifyComparesWithTheTag := by
  intro key payload tag s s'
  refine ⟨macTag params key payload, exec_macTag key payload s', ?_⟩
  rw [exec_macVerify, Bool.eq_iff_iff.2 ((macVerify_iff_bytes params key payload tag).trans decide_eq_true_iff.symm)]

/-- The host sees a tag only when it is the tag of the key and payload. -/
theorem eq_macTag_of_exec {key payload tag : List Byte} {s : State}
    (h : exec (.macTag key payload) s = .next (s.answer (.tag tag))) : tag = macTag params key payload := by
  rw [exec_macTag] at h
  have hr := congrArg State.response (Host.Outcome.next.inj h)
  cases hr
  rfl

/-- Settles O26: the tag answered is the tag that verification recomputes. -/
theorem tagVerifiesUnderItsOwnKey : Obligations.TagVerifiesUnderItsOwnKey := by
  intro key payload tag s s' h
  rw [exec_macVerify, (macVerify_iff params key payload tag).2 (eq_macTag_of_exec h)]

/-! ### The rendering of a payload -/

/-- R97: `a` to `f` follow each other from 61H. -/
theorem hexDigit_eq (n : Nat) : hexDigit n = BitVec.ofNat 8 (if n < 10 then 0x30 + n else 0x61 + (n - 10)) := by
  unfold hexDigit
  split
  · rfl
  · congr 1
    omega

@[simp] theorem length_hexLower (p : List Byte) : (hexLower p).length = 2 * p.length := by
  induction p with
  | nil => rfl
  | cons b rest ih =>
    simp only [hexLower, List.length_cons, ih]
    omega

/-- R97: byte `i` of the payload is rendered at places `2i` and `2i + 1`, high nibble first. -/
theorem getElem?_hexLower {p : List Byte} {i : Nat} {b : Byte} (h : p[i]? = some b) :
    (hexLower p)[2 * i]? = some (hexDigit (b.toNat / 16)) ∧
    (hexLower p)[2 * i + 1]? = some (hexDigit (b.toNat % 16)) := by
  induction p generalizing i with
  | nil => cases h
  | cons c rest ih =>
    cases i with
    | zero =>
      cases h
      exact ⟨rfl, rfl⟩
    | succ i => exact ih h

/-- Settles O27: the rendering's length, and its two digits at each byte's places. -/
theorem hexWritesTwoDigitsPerByte : Obligations.HexWritesTwoDigitsPerByte := by
  intro p
  refine ⟨length_hexLower p, fun i b hb => ?_⟩
  rw [← hexDigit_eq, ← hexDigit_eq]
  exact getElem?_hexLower hb

end Sys2Proof.Machine
end

section
/-!
PROOFS. Replay tables (43_replay_table.md R110 to R117): what the three commands do on a present and on an absent Node,
what a record writes and what the reads answer after it, and when two channels are one.
-/

namespace Sys2Proof.Machine

open Sys2Proof

/-! ### The Node a command names -/

section
variable {a : Addr} {s : State} (hc : s.constructed = true)
include hc

/-- R110: the refusal. -/
theorem withNode_of_absent (ha : s.reg.lookup a = none) (f : Node → State) :
    withNode a s f = s.raise .noSuchNode none := by
  rw [withNode, whenConstructed_true hc, ha]

theorem withNode_of_present {n : Node} (hn : s.reg.lookup a = some n) (f : Node → State) : withNode a s f = f n := by
  rw [withNode, whenConstructed_true hc, hn]

theorem exec_rptEntry_of_absent (ha : s.reg.lookup a = none) (src : Addr) (ds : List Addr) :
    exec (.rptEntry a src ds) s = .next (s.raise .noSuchNode none) :=
  congrArg Host.Outcome.next (withNode_of_absent hc ha _)

theorem exec_rptRecord_of_absent (ha : s.reg.lookup a = none) (src : Addr) (ds : List Addr) (c : Nat) :
    exec (.rptRecord a src ds c) s = .next (s.raise .noSuchNode none) :=
  congrArg Host.Outcome.next (withNode_of_absent hc ha _)

theorem exec_rptCurrent_of_absent (ha : s.reg.lookup a = none) (src : Addr) (ds : List Addr) :
    exec (.rptCurrent a src ds) s = .next (s.raise .noSuchNode none) :=
  congrArg Host.Outcome.next (withNode_of_absent hc ha _)

theorem exec_nodeVerify_of_absent (ha : s.reg.lookup a = none) (m : Message) :
    exec (.nodeVerify a m) s = .next (s.raise .noSuchNode none) :=
  congrArg Host.Outcome.next (withNode_of_absent hc ha _)

theorem exec_rptEntry_of_present {n : Node} (hn : s.reg.lookup a = some n) (src : Addr) (ds : List Addr) :
    exec (.rptEntry a src ds) s = .next (s.answer (.entry (n.rpt.lookup (channelKey src ds)))) :=
  congrArg Host.Outcome.next (withNode_of_present hc hn _)

theorem exec_rptRecord_of_present {n : Node} (hn : s.reg.lookup a = some n) (src : Addr) (ds : List Addr) (c : Nat) :
    exec (.rptRecord a src ds c) s =
      .next ((s.withReg (recordIn s.reg a n (channelKey src ds) c)).answer .done) :=
  congrArg Host.Outcome.next (withNode_of_present hc hn _)

theorem exec_rptCurrent_of_present {n : Node} (hn : s.reg.lookup a = some n) (src : Addr) (ds : List Addr) :
    exec (.rptCurrent a src ds) s = .next (s.answer (.counter (n.rpt.current (channelKey src ds)))) :=
  congrArg Host.Outcome.next (withNode_of_present hc hn _)

end

/-- Settles O34: all four commands reach the Node in one way. -/
theorem absentNodeIsRefused : Obligations.AbsentNodeIsRefused := fun _ src ds c m _ hc ha =>
  ⟨exec_rptEntry_of_absent hc ha src ds, exec_rptRecord_of_absent hc ha src ds c,
    exec_rptCurrent_of_absent hc ha src ds, exec_nodeVerify_of_absent hc ha m⟩

/-! ### The two reads -/

/-- Settles O28: the answer is the table's own. -/
theorem rptEntryReadsTheTable : Obligations.RptEntryReadsTheTable := fun _ src ds _ hc =>
  ⟨fun ha => exec_rptEntry_of_absent hc ha src ds, fun _ hn => exec_rptEntry_of_present hc hn src ds⟩

/-- R113: an absent entry counts as 0. -/
theorem current_of_lookup_none {t : ReplayTable} {k : ChannelKey} (h : t.lookup k = none) : t.current k = 0 := by
  rw [ReplayTable.current, h, Option.getD_none]

/-- Settles O29: the current counter is the entry, and 0 where there is none. -/
theorem rptCurrentReadsZeroForAbsent : Obligations.RptCurrentReadsZeroForAbsent := by
  refine fun a src ds s hc =>
    ⟨fun ha => exec_rptCurrent_of_absent hc ha src ds, fun n hn hk => ?_, fun n c hn hk => ?_⟩
  · rw [exec_rptCurrent_of_present hc hn, current_of_lookup_none hk]
  · rw [exec_rptCurrent_of_present hc hn, current_of_lookup hk]

/-- The reads depend only on whether the Node is there and on the entry of the channel they name. -/
theorem reads_congr {s t : State} (hs : s.constructed = true) (ht : t.constructed = true) {b src : Addr}
    {ds : List Addr} (h : (t.reg.lookup b).map (fun n => n.rpt.lookup (channelKey src ds)) =
      (s.reg.lookup b).map (fun n => n.rpt.lookup (channelKey src ds))) :
    ∃ r r' : Response,
      exec (.rptEntry b src ds) s = .next (s.answer r) ∧ exec (.rptEntry b src ds) t = .next (t.answer r) ∧
      exec (.rptCurrent b src ds) s = .next (s.answer r') ∧ exec (.rptCurrent b src ds) t = .next (t.answer r') := by
  cases hb : s.reg.lookup b with
  | none =>
    have hb' : t.reg.lookup b = none := by rwa [hb, Option.map_none, Option.map_eq_none_iff] at h
    exact ⟨.error .noSuchNode, .error .noSuchNode, exec_rptEntry_of_absent hs hb src ds,
      exec_rptEntry_of_absent ht hb' src ds, exec_rptCurrent_of_absent hs hb src ds,
      exec_rptCurrent_of_absent ht hb' src ds⟩
  | some n =>
    rw [hb, Option.map_some, Option.map_eq_some_iff] at h
    obtain ⟨n', hb', hk⟩ := h
    refine ⟨_, _, exec_rptEntry_of_present hs hb src ds, ?_, exec_rptCurrent_of_present hs hb src ds, ?_⟩
    · rw [exec_rptEntry_of_present ht hb', hk]
    · rw [exec_rptCurrent_of_present ht hb', ReplayTable.current, hk, ReplayTable.current]

/-! ### Recording -/

/-- Settles O30: the Node is stored back with the one entry of its table changed. -/
theorem rptRecordWritesOneEntry : Obligations.RptRecordWritesOneEntry := by
  refine fun a src ds c s hc => ⟨fun ha => exec_rptRecord_of_absent hc ha src ds c, fun n hn => ?_⟩
  refine ⟨_, { n with rpt := n.rpt.store (channelKey src ds) c }, exec_rptRecord_of_present hc hn src ds c,
    rfl, rfl, rfl, hc, rfl, rfl, rfl, ?node, rfl, rfl, ?entry, fun k hk => ?_, fun b hb => ?_⟩
  case node => exact (lookup_recordIn s.reg a a n _ c).trans (if_pos rfl)
  case entry => rw [lookup_store, if_pos rfl]
  · rw [lookup_store, if_neg hk]
  · exact (lookup_recordIn s.reg a b n _ c).trans (if_neg hb)

/-- Settles O31: the record's own entry holds its counter, and its frame leaves every other read as it was. -/
theorem readsAfterARecord : Obligations.ReadsAfterARecord := by
  intro a src b src' ds ds' c s t hc ha ht
  obtain ⟨n, hn⟩ := Option.isSome_iff_exists.1 ha
  obtain ⟨t', n', ht', -, -, -, hct, -, -, -, hn', -, -, hentry, hentries, hnodes⟩ :=
    (rptRecordWritesOneEntry a src ds c s hc).2 n hn
  obtain rfl : t' = t := Host.Outcome.next.inj (ht'.symm.trans ht)
  refine ⟨?_, ?_, fun hother => reads_congr hc hct ?_⟩
  · rw [exec_rptEntry_of_present hct hn', hentry]
  · rw [exec_rptCurrent_of_present hct hn', current_of_lookup hentry]
  · by_cases hb : b = a
    · have hk : channelKey src' ds' ≠ channelKey src ds := fun hk => hother ⟨hb, hk⟩
      rw [hb, hn, hn', Option.map_some, Option.map_some, hentries _ hk]
    · rw [hnodes b hb]

/-! ### Channels -/

/-- R19: an address occurs exactly when its own bit of the set is 1. -/
theorem mem_iff_getLsbD_addrSet (d : Addr) (ds : List Addr) : d ∈ ds ↔ (addrSet ds).getLsbD d.toNat = true := by
  rw [getLsbD_addrSet ds d.toNat d.isLt, BitVec.ofNat_toNat, BitVec.setWidth_eq, decide_eq_true_iff]

theorem addrSet_eq_iff (ds ds' : List Addr) : addrSet ds = addrSet ds' ↔ ∀ d, d ∈ ds ↔ d ∈ ds' := by
  constructor
  · intro h d
    rw [mem_iff_getLsbD_addrSet, mem_iff_getLsbD_addrSet, h]
  · intro h
    refine BitVec.eq_of_getLsbD_eq fun i hi => ?_
    rw [getLsbD_addrSet ds i hi, getLsbD_addrSet ds' i hi, decide_eq_decide]
    exact h _

/-- Settles O32: a key is a source and the bits of a set. -/
theorem channelIsSourceAndSet : Obligations.ChannelIsSourceAndSet := by
  intro src src' ds ds'
  rw [channelKey, channelKey, ChannelKey.mk.injEq, addrSet_eq_iff]

end Sys2Proof.Machine
end

section
/-!
PROOFS. Verification at a Node (44_node.md R120 to R129): the verdict in the terms of the message, what the command does
with a verdict, and the three claims on it.
-/

namespace Sys2Proof.Machine

open Sys2Proof

/-! ### The verdict -/

theorem judge_of_not_carriesTag {P : Params} {a : Addr} {n : Node} {m : Message} (h : ¬ CarriesTagFor P a n.key m) :
    judge P a n m = .authFailure :=
  (judge_authFailure_iff P a n m).2 fun hauth => h ((carriesTag_iff P a n m).2 hauth)

/-- R121, R161: of an authentic message only the freshness is left to decide. -/
theorem judge_of_carriesTag {P : Params} {a : Addr} {n : Node} {m : Message} (h : CarriesTagFor P a n.key m) :
    judge P a n m = freshness P n m :=
  if_pos ((carriesTag_iff P a n m).1 h)

theorem freshness_of_nil (P : Params) (n : Node) {m : Message} (h : m.payload = []) : freshness P n m = .noCounter := by
  rw [freshness, carriedCounter, h]
  rfl

/-- R122: this machine carries the counter in the first payload byte. -/
theorem carriedCounter_params_cons (c : Byte) (rest : List Byte) :
    carriedCounter params (c :: rest) = some c.toNat := rfl

theorem freshness_params_of_cons (n : Node) {m : Message} {c : Byte} {rest : List Byte} (h : m.payload = c :: rest) :
    freshness params n m = if n.rpt.current (messageChannel m) ≤ c.toNat then .accepted else .replay := by
  rw [freshness, h, carriedCounter_params_cons]

/-! ### What the command does with the verdict -/

/-- R124: only an acceptance writes the registry. -/
theorem registryAfter_of_rejected {P : Params} {reg : Registry} {a : Addr} {n : Node} {m : Message}
    (h : judge P a n m ≠ .accepted) : registryAfter P reg a n m = reg := by
  rcases registryAfter_cases P reg a n m with ⟨_, e⟩ | ⟨_, hj, _⟩
  · exact e
  · exact absurd hj h

theorem registryAfter_of_accepted {P : Params} (reg : Registry) {a : Addr} {n : Node} {m : Message} {c : Nat}
    (h : judge P a n m = .accepted) (hc : carriedCounter P m.payload = some c) :
    registryAfter P reg a n m = recordIn reg a n (messageChannel m) c := by
  rw [registryAfter, h, hc]

section
variable {a : Addr} {s : State} (hs : s.constructed = true) {n : Node} (hn : s.reg.lookup a = some n)
include hs hn

theorem exec_nodeVerify_of_present (m : Message) :
    exec (.nodeVerify a m) s = .next ((s.withReg (registryAfter params s.reg a n m)).answer
      (.verified (withAccepted m (judge params a n m)) (judge params a n m))) :=
  congrArg Host.Outcome.next (withNode_of_present hs hn _)

/-- R121, R124: a rejection answers the message with the flag false and its cause, and writes nothing. -/
theorem exec_nodeVerify_of_rejected {m : Message} {cause : Cause} (hj : judge params a n m = cause)
    (hne : cause ≠ .accepted) :
    exec (.nodeVerify a m) s = .next (s.answer (.verified { m with accepted := false } cause)) := by
  have hflag : cause.flag = false := Bool.eq_false_iff.2 (mt (flag_iff cause).1 hne)
  rw [exec_nodeVerify_of_present hs hn, registryAfter_of_rejected (hj.symm ▸ hne), hj, withAccepted, hflag]
  rfl

/-- R121: an acceptance answers the message with the flag true and stores the counter it carries. -/
theorem exec_nodeVerify_of_accepted {m : Message} {c : Nat} (hj : judge params a n m = .accepted)
    (hc : carriedCounter params m.payload = some c) :
    exec (.nodeVerify a m) s = .next ((s.withReg (recordIn s.reg a n (messageChannel m) c)).answer
      (.verified { m with accepted := true } .accepted)) := by
  rw [exec_nodeVerify_of_present hs hn, registryAfter_of_accepted s.reg hj hc, hj]
  rfl

end

/-! ### The claims -/

/-- Settles O33: each clause is one verdict, and an acceptance stores the Node back with one entry of its table set. -/
theorem nodeVerifyDecides : Obligations.NodeVerifyDecides := by
  refine fun a m s hs => ⟨fun ha => exec_nodeVerify_of_absent hs ha m, fun n hn htag => ?_, fun n hn htag hp => ?_,
    fun n c rest hn htag hp hlt => ?_, fun n c rest hn htag hp hle => ?_⟩
  · exact exec_nodeVerify_of_rejected hs hn (judge_of_not_carriesTag htag) (by decide)
  · have hfresh : freshness params n m = .noCounter := freshness_of_nil params n hp
    exact exec_nodeVerify_of_rejected hs hn ((judge_of_carriesTag htag).trans hfresh) (by decide)
  · have hfresh : freshness params n m = .replay := (freshness_params_of_cons n hp).trans (if_neg (Nat.not_le.2 hlt))
    exact exec_nodeVerify_of_rejected hs hn ((judge_of_carriesTag htag).trans hfresh) (by decide)
  · have hfresh : freshness params n m = .accepted := (freshness_params_of_cons n hp).trans (if_pos hle)
    have hexec := exec_nodeVerify_of_accepted hs hn ((judge_of_carriesTag htag).trans hfresh)
      (hp ▸ carriedCounter_params_cons c rest)
    refine ⟨_, { n with rpt := n.rpt.store (messageChannel m) c.toNat }, hexec, rfl, rfl, rfl, hs, rfl, rfl, rfl,
      ?node, rfl, rfl, ?entry, fun k hk => ?_, fun b hb => ?_⟩
    case node => exact (lookup_recordIn s.reg a a n _ _).trans (if_pos rfl)
    case entry => exact (lookup_store n.rpt _ _ _).trans (if_pos rfl)
    · exact (lookup_store n.rpt _ k _).trans (if_neg hk)
    · exact (lookup_recordIn s.reg a b n _ _).trans (if_neg hb)

/-- Settles O35: a tag is looked for at a position of the Node's address, and there is none. -/
theorem nonDestinationFailsAuthentication : Obligations.NonDestinationFailsAuthentication := by
  intro a m s hs hpresent hnot
  obtain ⟨n, hn⟩ := Option.isSome_iff_exists.1 hpresent
  have htag : ¬ CarriesTag a n.key m := fun ⟨_, hat, _, _⟩ => hnot (List.mem_of_getElem? hat)
  exact (nodeVerifyDecides a m s hs).2.1 n hn htag

/-- Settles O36: an accepted counter is at least 255, and no byte is more. -/
theorem counterDoesNotWrap : Obligations.CounterDoesNotWrap := by
  intro a m m' s t n hs hn hstored hexec hresp
  obtain rfl := Host.Outcome.next.inj ((exec_nodeVerify_of_present hs hn m).symm.trans hexec)
  obtain ⟨-, hj⟩ := Response.verified.inj (Option.some.inj hresp)
  obtain ⟨-, c, hc, hle⟩ := (judge_accepted_iff params a n m).1 hj
  have h255 : 255 ≤ c.toNat := (current_of_lookup (k := messageChannel m) hstored) ▸ hle
  have hbyte : c = 255#8 := by bv_omega
  obtain ⟨rest, hp⟩ := List.head?_eq_some_iff.1 (List.head?_eq_getElem?.trans hc)
  exact ⟨rest, hbyte ▸ hp⟩

end Sys2Proof.Machine
end

section
/-!
PROOFS. The secure link (45_secure_link.md R130 to R144): the address claim and the construction, message construction,
resolving, sending and receiving, and what one endpoint sends another receives. Each command has an equation per ending;
the claims are read off them.
-/

namespace Sys2Proof.Machine

open Sys2Proof

/-! ### The transport's answers -/

section
variable {s : State} (q : TransportRequest)

theorem obtain_of_listed {ans : OpenAnswer} {rest : List OpenAnswer} (h : s.openIn = ans :: rest) :
    s.obtain q = (ans, { s with openIn := rest }) := by
  simp only [State.obtain, h, nextAnswer]

theorem obtain_of_unlisted (h : s.openIn = []) :
    s.obtain q = (Config.openAnswer q s.draws, { s with draws := s.draws + 1 }) := by
  simp only [State.obtain, h, nextAnswer]

theorem txWrite_of_listed {ans : WriteAnswer} {rest : List WriteAnswer} (h : s.writeIn = ans :: rest) :
    s.txWrite q = (ans, { s with writeIn := rest }) := by
  simp only [State.txWrite, h, nextAnswer]

theorem txWrite_of_unlisted (h : s.writeIn = []) :
    s.txWrite q = (Config.writeAnswer q s.draws, { s with draws := s.draws + 1 }) := by
  simp only [State.txWrite, h, nextAnswer]

theorem rxRead_of_listed {ans : ReadAnswer} {rest : List ReadAnswer} (h : s.readIn = ans :: rest) :
    s.rxRead q = (ans, { s with readIn := rest }) := by
  simp only [State.rxRead, h, nextAnswer]

theorem rxRead_of_unlisted (h : s.readIn = []) :
    s.rxRead q = (Config.readAnswer q s.draws, { s with draws := s.draws + 1 }) := by
  simp only [State.rxRead, h, nextAnswer]

end

/-! ### The address claim -/

/-- R132: below the claimed address every natural is taken. -/
theorem mem_of_lt_claim {claimed : List Nat} {k : Nat} (h : k < claim claimed) : k ∈ claimed :=
  (claimFrom_spec claimed claimed.length 0 (fun _ hk => absurd hk (Nat.not_lt_zero _))).1 k h

/-- R132: there is one least natural outside a list. -/
theorem claim_eq_of_least {claimed : List Nat} {n : Nat} (hfree : n ∉ claimed) (hbelow : ∀ k, k < n → k ∈ claimed) :
    claim claimed = n := by
  rcases lt_trichotomy (claim claimed) n with hlt | heq | hgt
  · exact absurd (hbelow _ hlt) (claim_free claimed)
  · exact heq
  · exact absurd (mem_of_lt_claim hgt) hfree

/-- R133: with all 64 addresses claimed the least natural left is no address. -/
theorem claim_addrMembers_of_full {m : AddrSet} (h : ∀ a, a < 64 → m.getLsbD a = true) :
    63 < claim (addrMembers m) := by
  by_contra hle
  have hlt : claim (addrMembers m) < 64 := by omega
  exact claim_free (addrMembers m) ((mem_addrMembers m _).2 ⟨hlt, h _ hlt⟩)

theorem claim_addrMembers_of_least {m : AddrSet} {a : Nat} (ha : a < 64) (hfree : m.getLsbD a = false)
    (hbelow : ∀ b, b < a → m.getLsbD b = true) : claim (addrMembers m) = a := by
  refine claim_eq_of_least (fun hmem => ?_) fun b hb => (mem_addrMembers m b).2 ⟨hb.trans ha, hbelow b hb⟩
  rw [((mem_addrMembers m a).1 hmem).2] at hfree
  cases hfree

/-- Settles O37: the search finds a natural outside the list, and everything below it in the list. -/
theorem linkClaimIsTheLeastFree : Obligations.LinkClaimIsTheLeastFree := fun claimed _ =>
  ⟨claim claimed, rfl, claim_free claimed, fun _ => mem_of_lt_claim⟩

/-! ### Construction -/

section
variable {P : Params} {cfg : LinkCfg} {s : State}

theorem linkConstructCmd_of_constructed (hc : s.constructed = true) :
    linkConstructCmd P cfg s = s.raise .alreadyConstructed none := if_pos hc

section
variable (hc : s.constructed = false)
include hc

theorem linkConstructCmd_of_exhausted (h : 63 < claim (addrMembers cfg.claimed)) :
    linkConstructCmd P cfg s = s.raise .addressSpaceExhausted none := by
  rw [linkConstructCmd, if_neg (Bool.eq_false_iff.1 hc)]
  exact if_pos h

variable {a : Nat} (ha : claim (addrMembers cfg.claimed) = a) (hlt : a < 64)
include ha hlt

theorem linkConstructCmd_of_handle {th : Handle} (ho : (s.obtain (obtainRequest cfg)).1 = .handle th) :
    linkConstructCmd P cfg s = ((s.obtain (obtainRequest cfg)).2.construct P cfg (BitVec.ofNat 6 a) th).respond .ok
      (some (obtainRequest cfg)) := by
  have hle : ¬ addrMax < a := not_lt.2 (Nat.le_of_lt_succ hlt)
  simp only [linkConstructCmd, hc, ha, if_neg hle, ho, Bool.false_eq_true, if_false]

theorem linkConstructCmd_of_failure (ho : (s.obtain (obtainRequest cfg)).1 = .failure) :
    linkConstructCmd P cfg s =
      (s.obtain (obtainRequest cfg)).2.raise .transportFailure (some (obtainRequest cfg)) := by
  have hle : ¬ addrMax < a := not_lt.2 (Nat.le_of_lt_succ hlt)
  simp only [linkConstructCmd, hc, ha, if_neg hle, ho, Bool.false_eq_true, if_false]

end
end

theorem exec_linkConstruct (cfg : LinkCfg) (s : State) :
    exec (.linkConstruct cfg) s = .next (linkConstructCmd params cfg s) := rfl

/-- Settles O38: the least address not claimed decides between exhaustion and the transport's answer. -/
theorem linkConstructBuildsTheLink : Obligations.LinkConstructBuildsTheLink := by
  intro cfg s
  dsimp only
  rw [exec_linkConstruct]
  refine ⟨fun _ _ => obtain_of_listed _, obtain_of_unlisted _, fun hc => ?_, fun ⟨hc, hfull⟩ => ?_,
    fun a hc hlt hfree hbelow => ?_⟩
  · rw [linkConstructCmd_of_constructed hc]
  · rw [linkConstructCmd_of_exhausted hc (claim_addrMembers_of_full hfull)]
  · have ha := claim_addrMembers_of_least hlt hfree hbelow
    refine ⟨fun th ho => ?_, fun ho => ?_⟩
    · rw [linkConstructCmd_of_handle hc ha hlt ho]
      rfl
    · rw [linkConstructCmd_of_failure hc ha hlt ho]
      rfl

/-! ### Message construction -/

theorem map_toNat_map_ofNat {w : Nat} {ns : List Nat} (h : ∀ n ∈ ns, n < 2 ^ w) :
    (ns.map (BitVec.ofNat w)).map BitVec.toNat = ns := by
  rw [List.map_map]
  exact (List.map_congr_left fun n hn => Nat.mod_eq_of_lt (h n hn)).trans (List.map_id ns)

section
variable {P : Params} {fd : Bool} (ts : Timestamp) {p src : Nat} {ds payload : List Nat}

theorem msgNew_badArbitrationId (h : ¬ InRange p src ds) :
    msgNew P fd ts p src ds payload = .error (.malformedMessage .badArbitrationId) := by
  have hv : aidValid p src ds = false := Bool.eq_false_iff.2 (mt (aidValid_iff p src ds).1 h)
  simp only [msgNew, hv, Bool.not_false, if_true]

variable (hr : InRange p src ds)
include hr

theorem msgNew_byteOutOfRange (h : ¬ ∀ b ∈ payload, b ≤ 255) :
    msgNew P fd ts p src ds payload = .error (.malformedMessage .byteOutOfRange) := by
  have hany : (payload.any fun b => 255 < b) = true := by simpa using h
  simp only [msgNew, (aidValid_iff p src ds).2 hr, hany, Bool.not_true, Bool.false_eq_true, if_false, if_true]

variable (hb : ∀ b ∈ payload, b ≤ 255)
include hb

theorem msgNew_payloadTooLong (h : (if fd then 64 else 8) < payload.length + ds.length * P.tagLen) :
    msgNew P fd ts p src ds payload = .error (.malformedMessage .payloadTooLong) := by
  have hany : (payload.any fun b => 255 < b) = false := by simpa using hb
  simp only [msgNew, (aidValid_iff p src ds).2 hr, hany, Bool.not_true, Bool.false_eq_true, if_false, if_pos h]

/-- R134: past the checks every field of the message is the operand. -/
theorem msgNew_ok (h : payload.length + ds.length * P.tagLen ≤ if fd then 64 else 8) :
    ∃ m, msgNew P fd ts p src ds payload = .ok m ∧ m.timestamp = ts ∧ m.aid.priority.toNat = p ∧
      m.aid.source.toNat = src ∧ m.aid.dests.map BitVec.toNat = ds ∧ m.payload.map BitVec.toNat = payload ∧
      m.tags = [] ∧ m.accepted = false := by
  have hany : (payload.any fun b => 255 < b) = false := by simpa using hb
  simp only [msgNew, (aidValid_iff p src ds).2 hr, hany, Bool.not_true, Bool.false_eq_true, if_false,
    if_neg (not_lt.2 h)]
  obtain ⟨hp, hs, -, hd⟩ := hr
  exact ⟨_, rfl, rfl, Nat.mod_eq_of_lt (by omega), Nat.mod_eq_of_lt (by omega),
    map_toNat_map_ofNat fun d hmem => Nat.lt_succ_of_le (hd d hmem),
    map_toNat_map_ofNat fun b hmem => Nat.lt_succ_of_le (hb b hmem), rfl, rfl⟩

end

theorem exec_msgNew {s : State} (hc : s.constructed = true) (ts : Timestamp) (p src : Nat) (ds payload : List Nat) :
    exec (.msgNew ts p src ds payload) s =
      .next (s.reply ((msgNew params s.cfg.fdEnabled ts p src ds payload).map .message)) :=
  congrArg Host.Outcome.next (whenConstructed_true hc _)

/-- Settles O39: the refusal, then the three checks in their order, then the message. -/
theorem msgNewChecksAndConstructs : Obligations.MsgNewChecksAndConstructs := by
  intro ts p src ds payload s
  refine ⟨fun hc => ?_, fun ⟨hc, hr⟩ => ?_, fun ⟨hc, hr, hb⟩ => ?_, fun ⟨hc, hr, hb, hlong⟩ => ?_,
    fun ⟨hc, hr, hb, hfit⟩ => ?_⟩
  · exact stateCommandsNeedConstruction _ s hc rfl fun _ h => nomatch h
  · rw [exec_msgNew hc, msgNew_badArbitrationId ts hr]
    rfl
  · rw [exec_msgNew hc, msgNew_byteOutOfRange ts hr hb]
    rfl
  · rw [exec_msgNew hc, msgNew_payloadTooLong ts hr hb hlong]
    rfl
  · obtain ⟨m, hm, hfields⟩ := msgNew_ok ts hr hb hfit
    rw [exec_msgNew hc, hm]
    exact ⟨m, rfl, hfields⟩

/-! ### Resolving -/

theorem nodeFor_of_present {P : Params} {reg : Registry} {d : Addr} {n : Node} (h : reg.lookup d = some n) :
    reg.nodeFor P d = n := by
  rw [Registry.nodeFor, h, Option.getD_some]

theorem nodeFor_of_absent {P : Params} {reg : Registry} {d : Addr} (h : reg.lookup d = none) :
    reg.nodeFor P d = freshNode P d := by
  rw [Registry.nodeFor, h, Option.getD_none]

theorem resolve_of_present {P : Params} {reg : Registry} {d : Addr} {n : Node} (h : reg.lookup d = some n) :
    reg.resolve P d = reg := by
  rw [Registry.resolve, h]

theorem exec_linkResolve {s : State} (hc : s.constructed = true) (d : Addr) :
    exec (.linkResolve d) s =
      .next ((s.withReg (s.reg.resolve params d)).answer (.node (s.reg.nodeFor params d))) :=
  congrArg Host.Outcome.next (whenConstructed_true hc _)

/-- Settles O40: resolving a present address changes nothing, and an absent one gets its fresh Node. -/
theorem linkResolveInsertsOnFirstSight : Obligations.LinkResolveInsertsOnFirstSight := by
  refine fun d s => ⟨fun hc => ?_, fun n hc hn => ?_, fun hc hd => ?_⟩
  · exact stateCommandsNeedConstruction _ s hc rfl fun _ h => nomatch h
  · rw [exec_linkResolve hc, resolve_of_present hn, nodeFor_of_present hn]
    rfl
  · have hlook (b : Addr) := lookup_resolve params s.reg d b
    rw [exec_linkResolve hc]
    rw [nodeFor_of_absent hd] at hlook ⊢
    exact ⟨_, rfl, rfl, rfl, rfl, hc, rfl, rfl, rfl, (hlook d).trans (if_pos rfl),
      fun b hb => (hlook b).trans (if_neg hb)⟩

/-! ### Sending -/

section
variable {P : Params} {m : Message} {s : State} (hc : s.constructed = true)
include hc

theorem linkSendCmd_of_tagged (ht : m.tags ≠ []) : linkSendCmd P m s = s.raise (.malformedMessage .badTags) none := by
  rw [linkSendCmd, whenConstructed_true hc, if_pos ht]

variable (ht : m.tags = [])
include ht

theorem linkSendCmd_of_not_fits (hf : ¬ Fits s.cfg.fdEnabled (m.payload.length + m.aid.dests.length * P.tagLen)) :
    linkSendCmd P m s = s.raise (.malformedMessage .payloadTooLong) none := by
  rw [linkSendCmd, whenConstructed_true hc, if_neg (not_not_intro ht), frmSel_nofit hf]

theorem linkSendCmd_of_built (hf : Fits s.cfg.fdEnabled (m.payload.length + m.aid.dests.length * P.tagLen))
    {buf : List Byte} (hb : frmBuild P s.cfg.fdEnabled (outgoing P s m) = .ok buf) :
    linkSendCmd P m s = transmit (s.withReg (s.reg.resolveAll P m.aid.dests)) (outgoing P s m) buf := by
  rw [linkSendCmd, whenConstructed_true hc, if_neg (not_not_intro ht), frmSel_fit hf]
  simp only [hb]

end

/-- R138, R155: what a send answers on the transport's answer to its write. -/
def writeResponse (m : Message) : WriteAnswer → Response
  | .written n => .sent m n
  | .failure => .transportFailure

theorem transmit_eq_respond (s : State) (m : Message) (buf : List Byte) :
    transmit s m buf = (s.txWrite (.write s.th buf)).2.respond
      (writeResponse m (s.txWrite (.write s.th buf)).1) (some (.write s.th buf)) := by
  rcases transmit_cases s m buf with ⟨hw, e⟩ | ⟨n, hw, e⟩ <;> rw [e, hw] <;> rfl

theorem exec_linkSend (m : Message) (s : State) : exec (.linkSend m) s = .next (linkSendCmd params m s) := rfl

/-- Settles O41: the tags are looked at first, then the combined length. -/
theorem linkSendRaises : Obligations.LinkSendRaises := by
  refine fun m s hc => ⟨fun ht => ?_, fun ⟨ht, hf⟩ => ?_⟩
  · rw [exec_linkSend, linkSendCmd_of_tagged hc ht]
  · rw [exec_linkSend, linkSendCmd_of_not_fits hc ht hf]

/-- R101, R138: the tags are made with the keys that stood before the send or, for an address first seen, derived. -/
theorem outgoing_eq (P : Params) (s : State) (m : Message) : outgoing P s m =
    { m with
      aid := { m.aid with source := s.localAddr }
      tags := m.aid.dests.map fun d => macTag P ((s.reg.lookup d).getD (freshNode P d)).key m.payload } := by
  simp only [outgoing, tagsFor, nodeFor_resolveAll]
  rfl

theorem tagsFitFor_outgoing (P : Params) (s : State) (m : Message) : TagsFitFor P (outgoing P s m) := by
  refine ⟨List.length_map _, fun t ht => ?_⟩
  obtain ⟨d, -, rfl⟩ := List.mem_map.1 ht
  exact length_macTag P _ _

theorem length_body_outgoing (P : Params) (s : State) (m : Message) :
    ((outgoing P s m).payload ++ (outgoing P s m).tags.flatten).length =
      m.payload.length + m.aid.dests.length * P.tagLen := by
  obtain ⟨hlen, htags⟩ := tagsFitFor_outgoing P s m
  rw [List.length_append, length_flatten_tags P htags, hlen]
  rfl

/-- R138: a message that passes the checks of a send can be built (log entry 15). -/
theorem frmBuild_outgoing {P : Params} {s : State} {m : Message} (hw : m.wellFormed = true)
    (hf : Fits s.cfg.fdEnabled (m.payload.length + m.aid.dests.length * P.tagLen)) :
    ∃ buf, frmBuild P s.cfg.fdEnabled (outgoing P s m) = .ok buf := by
  rw [← length_body_outgoing P s m] at hf
  obtain ⟨v, -, -, -, hbuild⟩ := frmBuild_ok (m := outgoing P s m) hw (tagsFitFor_outgoing P s m) hf
  exact ⟨_, hbuild⟩

/-- Settles O42: the outgoing message is built and written over the resolved registry, and the answer is read off the
transport's. -/
theorem linkSendTagsBuildsAndWrites : Obligations.LinkSendTagsBuildsAndWrites := by
  intro m s hw hc ht hf
  obtain ⟨buf, hbuild⟩ := frmBuild_outgoing hw hf
  have hsend := linkSendCmd_of_built hc ht hf hbuild
  rw [transmit_eq_respond] at hsend
  have hframe : exec (.frmBuild (outgoing params s m)) s = .next (s.answer (.buffer buf)) := by
    rw [exec_frmBuild hc, hbuild]
    rfl
  rw [outgoing_eq] at hsend hframe
  have hlook := lookup_resolveAll params s.reg m.aid.dests
  exact ⟨_, buf, congrArg Host.Outcome.next hsend, hframe,
    ⟨fun _ _ => txWrite_of_listed _, txWrite_of_unlisted _, rfl, rfl, rfl⟩, hc, rfl, rfl, rfl,
    fun d hd => (hlook d).trans (if_pos hd), fun d hd => (hlook d).trans (if_neg hd)⟩

/-! ### Receiving -/

section
variable {P : Params} {s : State}

theorem exec_linkRecv (hc : s.constructed = true) (tm : Timeout) :
    exec (.linkRecv tm) s = .next
      (received params (s.rxRead (.read s.th tm)).2 (.read s.th tm) (s.rxRead (.read s.th tm)).1) :=
  congrArg Host.Outcome.next (whenConstructed_true hc _)

theorem received_of_unparsed {q : TransportRequest} {buf : List Byte} {e : Err}
    (h : frmParse P s.drawnTimestamp buf = .error e) : received P s q (.frame buf) = s.raise e (some q) := by
  simp only [received, h]

/-- R140: the state in which a message that was read is verified: its timestamp drawn, its source and destinations
resolved. -/
def resolvedFor (P : Params) (s : State) (m : Message) : State :=
  s.drawn.withReg (s.reg.resolveAll P (m.aid.source :: m.aid.dests))

theorem lookup_resolvedFor (m : Message) (b : Addr) : (resolvedFor P s m).reg.lookup b =
    if b = m.aid.source ∨ b ∈ m.aid.dests then some (s.reg.nodeFor P b) else s.reg.lookup b := by
  simp only [resolvedFor, withReg_reg, lookup_resolveAll, List.mem_cons]

/-- R140, R141: a parsed message is delivered with the verdict of the local Node. -/
theorem received_of_parsed {q : TransportRequest} {buf : List Byte} {m : Message} {n : Node}
    (h : frmParse P s.drawnTimestamp buf = .ok m) (hn : (resolvedFor P s m).reg.lookup s.localAddr = some n) :
    received P s q (.frame buf) =
      ((resolvedFor P s m).withReg (registryAfter P (resolvedFor P s m).reg s.localAddr n m)).respond
        (.received (withAccepted m (judge P s.localAddr n m)) (judge P s.localAddr n m)) (some q) := by
  simp only [resolvedFor, withReg_reg] at hn ⊢
  simp only [received, h, deliver, drawn_reg, drawn_localAddr, hn]
  rfl

end

/-- R86: a buffer of one of the two sizes that the parser does not accept has a length byte that does not fit. -/
theorem frmParse_of_not_parses {buf : List Byte} (hsize : buf.length = 16 ∨ buf.length = 72) (h : ¬ Parses buf)
    (ts : Timestamp) : frmParse params ts buf = .error (.malformedFrame .badLength) := by
  obtain ⟨k, hk, hcap⟩ := size_eq_cap hsize
  refine frmParse_badLength hk ?_ ts
  by_contra hboth
  obtain ⟨hle, hq⟩ := not_or.1 hboth
  rw [length_bufferAid_params] at hq
  exact h ⟨hsize, hcap ▸ not_lt.1 hle, not_lt.1 hq⟩

/-- Settles O43: each answer of the transport that delivers no message. -/
theorem linkRecvWithoutAMessage : Obligations.LinkRecvWithoutAMessage := by
  intro tm s hc
  dsimp only
  rw [exec_linkRecv hc]
  refine ⟨fun _ _ => rxRead_of_listed _, rxRead_of_unlisted _, fun hr => ?_, fun hr => ?_, fun buf hr hsize => ?_,
    fun buf hr hsize hparse => ?_⟩
  · rw [hr]
    rfl
  · rw [hr]
    rfl
  · rw [hr, received_of_unparsed (frmParse_badSize (not_or.2 hsize) _)]
  · rw [hr, received_of_unparsed (frmParse_of_not_parses hsize hparse _)]

/-- Settles O44: the state in between is the one with the answer and a timestamp drawn and the registry resolved. -/
theorem linkRecvResolvesThenVerifies : Obligations.LinkRecvResolvesThenVerifies := by
  intro tm s buf hc hlocal hread hparses
  obtain ⟨n, hn⟩ := Option.isSome_iff_exists.1 hlocal
  obtain ⟨m, hparse, hm⟩ := frmParse_of_parses hparses (s.rxRead (.read s.th tm)).2.drawnTimestamp
  have hlook := lookup_resolvedFor (P := params) (s := (s.rxRead (.read s.th tm)).2) m
  have hcon : (resolvedFor params (s.rxRead (.read s.th tm)).2 m).constructed = true := hc
  have hn' : (resolvedFor params (s.rxRead (.read s.th tm)).2 m).reg.lookup s.localAddr = some n :=
    lookup_resolveAll_present params hn _
  refine ⟨m, _, _, resolvedFor params (s.rxRead (.read s.th tm)).2 m, _, hm, hcon, rfl, rfl, rfl, rfl,
    fun b hb => (hlook b).trans (if_pos hb), fun b hb => (hlook b).trans (if_neg hb),
    exec_nodeVerify_of_present hcon hn' m, rfl, ?_⟩
  rw [exec_linkRecv hc, hread, received_of_parsed hparse hn']
  rfl

/-! ### From one endpoint to another -/

/-- Settles O46: the law for any parameters at those of this machine, whose counter is the first payload byte. -/
theorem sentMessageIsReceived : Obligations.SentMessageIsReceived := by
  intro m m' a b t nbytes buf th rest tm n ⟨_, _, ha, _⟩ hsend hsent hwrite hc ⟨_, _, hb, _⟩ hn hread
  have hframe : (b.rxRead (.read b.th tm)).1 = .frame buf := congrArg Prod.fst (rxRead_of_listed _ hread)
  obtain ⟨u, r, cause, hexec, hresp, hprio, hsrc, hdests, hpay, hauth, hacc⟩ :=
    anySharedParametersDeliver params m m' a b t nbytes buf th tm n ha (exec_eq_execWith ▸ hsend) hsent hwrite hc hb hn
      hframe
  refine ⟨u, r, cause, exec_eq_execWith ▸ hexec, hresp, hprio, hsrc, hdests, hpay, hauth, ?_⟩
  have hhead : ∀ c, m.payload[params.ctrIndex]? = some c ↔ ∃ tail, m.payload = c :: tail := fun c => by
    rw [show params.ctrIndex = 0 from rfl, ← List.head?_eq_getElem?, List.head?_eq_some_iff]
  simp only [hacc, hhead, exists_and_right]

end Sys2Proof.Machine
end

section
/-!
PROOFS. Outcomes and errors (60_exceptions.md R150 to R161): every command ends with one answer, an error writes no
state of the block, and the numbers of the outcomes.
-/

namespace Sys2Proof.Machine

open Sys2Proof

/-! ### Every command ends with one answer -/

/-- R150: no command faults or is refused by the machine. -/
theorem exists_exec_eq_next (i : Instr) (s : State) : ∃ t, exec i s = .next t := by
  cases i <;> exact ⟨_, rfl⟩

/-- R36, R150: a command answers, and takes nothing more from the command port. -/
theorem exec_answers_and_keeps_port {i : Instr} {s t : State} (h : exec i s = .next t) :
    (∃ r, t.response = some r) ∧ t.port = s.port := by
  rcases exec_cases h with ⟨_, _, hport, _, _, _, hresp⟩ | ⟨_, _, _, _, _, _, _, _, rfl⟩ | ⟨_, _, _, _, _, _, rfl⟩ |
    ⟨_, _, _, _, _, rfl⟩ | ⟨_, _, _, _, _, _, rfl⟩ | ⟨_, _, _, rfl⟩ | ⟨_, _, _, _, _, _, rfl⟩ |
    ⟨_, _, _, _, _, rfl | rfl⟩ | ⟨_, _, _, _, _, _, _, rfl⟩
  case inl => exact ⟨hresp, hport⟩
  all_goals exact ⟨⟨_, rfl⟩, rfl⟩

/-- Settles O9: every command answers a next state, and each of its endings is an answer. -/
theorem everyCommandEndsWithAnAnswer : Obligations.EveryCommandEndsWithAnAnswer := by
  intro i s
  obtain ⟨t, h⟩ := exists_exec_eq_next i s
  obtain ⟨⟨r, hresp⟩, hport⟩ := exec_answers_and_keeps_port h
  exact ⟨t, r, h, hresp, hport⟩

/-! ### An error writes no state -/

/-- R154: a command that writes the block's state answers a result, so one that answers an error has not. -/
theorem exec_error_keeps_block {i : Instr} {s t : State} {e : Err} (h : exec i s = .next t)
    (he : t.response = some (.error e)) : t.block = s.block := by
  rcases exec_cases h with ⟨hblock, _⟩ | ⟨_, _, _, _, _, _, _, _, rfl⟩ | ⟨_, _, _, _, _, _, rfl⟩ |
    ⟨_, _, _, _, _, rfl⟩ | ⟨_, _, _, _, _, _, rfl⟩ | ⟨_, _, _, rfl⟩ | ⟨_, _, _, _, _, rfl | ⟨_, _, rfl⟩, rfl⟩ |
    ⟨_, _, _, _, _, rfl | rfl⟩ | ⟨_, _, _, _, _, _, _, rfl⟩
  · exact hblock
  · cases he
  · cases he
  · rfl
  · cases he
  · cases he
  · cases he
  · cases he
  · rfl
  · rfl
  · cases he

/-- R140: a receive uses up the transport's next answer, whatever it makes of it. -/
theorem linkRecv_readIn {tm : Timeout} {s t : State} {r : ReadAnswer} {rest : List ReadAnswer}
    (hc : s.constructed = true) (hr : s.readIn = r :: rest) (h : exec (.linkRecv tm) s = .next t) : t.readIn = rest := by
  have hread : (s.rxRead (.read s.th tm)).2.readIn = rest := by rw [rxRead_of_listed _ hr]
  obtain rfl : linkRecvCmd params tm s = t := Host.Outcome.next.inj h
  rcases linkRecvCmd_cases params s tm with ⟨hf, _⟩ | ⟨_, _, e⟩ | ⟨_, _, e⟩ | ⟨_, _, _, _, _, e⟩ |
    ⟨_, _, _, _, _, _, e⟩ | ⟨_, _, _, _, _, _, _, e⟩
  case inl => rw [hc] at hf; cases hf
  all_goals rw [e]; exact hread

/-- R158: before construction a receive is refused, and raises nothing else. -/
theorem constructed_of_linkRecv_error {tm : Timeout} {s t : State} {e : Err} (h : exec (.linkRecv tm) s = .next t)
    (he : t.response = some (.error e)) (hne : e ≠ .notConstructed) : s.constructed = true := by
  by_contra hc
  obtain rfl : s.raise .notConstructed none = t :=
    Host.Outcome.next.inj ((congrArg _ (whenConstructed_false (Bool.not_eq_true _ ▸ hc) _)).symm.trans h)
  cases he
  exact hne rfl

/-- Settles O50: an error is no ending that writes, and the receive that raises one has read its frame. -/
theorem errorsWriteNoState : Obligations.ErrorsWriteNoState :=
  ⟨fun _ _ _ _ h he => exec_error_keeps_block h he, fun _ _ _ _ _ _ h he hr =>
    ⟨exec_error_keeps_block h he, linkRecv_readIn (constructed_of_linkRecv_error h he nofun) hr h⟩⟩

/-! ### The numbers of the outcomes -/

/-- R156: code 5 is never reported. -/
theorem Cause.code_ne_five (c : Cause) : c.code ≠ 5 := by
  cases c <;> simp [Cause.code]

theorem Err.code_ne_five (e : Err) : e.code ≠ 5 := by
  cases e <;> simp [Err.code]

theorem Response.code_ne_five (r : Response) : r.code ≠ 5 := by
  cases r
  case error e => exact e.code_ne_five
  case verified c | received c => exact c.code_ne_five
  all_goals simp [Response.code]

/-- The code of an answer that is no error, verdict, transport failure or absent message (log entry 20). -/
theorem Response.code_of_normalEnd {r : Response} (herr : ∀ e, r ≠ .error e) (hver : ∀ m c, r ≠ .verified m c)
    (hrec : ∀ m c, r ≠ .received m c) (hfail : r ≠ .transportFailure) (hnone : r ≠ .noMessage) : r.code = 0 := by
  cases r
  case error e => exact absurd rfl (herr e)
  case verified m c => exact absurd rfl (hver m c)
  case received m c => exact absurd rfl (hrec m c)
  case transportFailure => exact absurd rfl hfail
  case noMessage => exact absurd rfl hnone
  all_goals rfl

/-- Settles O58: the codes are the table of R151, read row by row. -/
theorem outcomeCodes : Obligations.OutcomeCodes := by
  refine ⟨fun m c f => ⟨rfl, rfl, rfl, rfl, rfl, rfl, rfl, rfl, rfl, fun r hr => ?_⟩, ⟨rfl, rfl, rfl, rfl⟩,
    fun _ => Response.code_of_normalEnd, Response.code_ne_five⟩
  rcases hr with rfl | rfl <;> exact ⟨rfl, rfl, rfl, rfl⟩

end Sys2Proof.Machine
end
